-- ==== Sys2Proof/Word.lean ====
section
/-! DEFINITION. The value domains of 00_scope.md R7: host integers, instruction words, addresses. -/

namespace Sys2Proof

/-- `HostInt` (R7): the values of a 32-bit two's complement integer.  The accumulator and every memory cell hold one.
`BitVec.toInt` is the integer the rules speak of (`s32` of R8), `BitVec.toNat` its pattern (`u32` of R8). -/
abbrev HostInt := BitVec 32

/-- `Word24` (R7): the integers 0 to 0xFFFFFF, the width of an instruction word (R60). -/
abbrev Word24 := BitVec 24

/-- The number of memory cells, `ADDR_SPACE` of R5: addresses are 0 to 0xFFFFF (R7 `Addr`). -/
abbrev addrSpace : Nat := 0x100000

end Sys2Proof
end

