-- ==== Sys2Proof/Config.lean ====
section
/-! DEFINITION. What an implementation fixes (00_scope.md R5): the instruction table's names, the parameters of a machine,
and the texts the spec leaves open. -/

namespace Sys2Proof

/-- The canonical mnemonics of the instruction table (30_encoding.md R65, R66), which is configuration and not state
(10_state.md R34). -/
inductive Mnemonic where
  | ldc | ldv | stv | add | and | or | xor | eql | jmp | jmn | ldiv | stiv | out | hlt | not | rar
  deriving DecidableEq, Repr

/-- What a machine is made with: the two parameters of R5 that steer a step and that the spec leaves OPEN (log 3), and what
the accumulator holds before its first write (log 1).  They are fields of State, which no step writes, so that a claim about a
step holds for every value of them. -/
structure Params where
  /-- `STEP_CEILING`, "a positive natural number" (R5, R91, D14). -/
  ceiling : { n : Nat // 0 < n }
  /-- `UNDEF_FETCH_ADVANCES_IP` (R92, D12). -/
  undefFetchAdvancesIp : Bool
  /-- The accumulator's value right after reset, which the source does not give (10_state.md R22).  `some v`: it holds `v`;
  `none`: the reading of decision D6, in which it is unwritten and a read before any write faults.  Read by reset alone. -/
  accAtReset : Option HostInt
  deriving DecidableEq, Repr

/-- `STEP_CEILING` as a number. -/
def Params.stepCeiling (p : Params) : Nat := p.ceiling.val

/-- The values 95_test_vectors.md uses "unless a vector says otherwise", with the accumulator unwritten after reset (D6). -/
def Params.vectors : Params := { ceiling := ⟨1000, by decide⟩, undefFetchAdvancesIp := false, accAtReset := none }

/-- The parameters of `State.reset`.  DESIGN CHOICE, unsafe for a claim about runs from there: the ceiling and the flag are those
of the test vectors, which the spec leaves open (log 3), and the accumulator holds 0, for which the source gives no value
(log 1). -/
def Params.reset : Params := { Params.vectors with accAtReset := some 0 }

/-- A line of the log channel: which line it is and what it carries (40_step_engine.md R107). -/
inductive LogLine where
  /-- The forced-termination message of a ceiling trip (R91). -/
  | maxRuntime
  /-- The undefined-memory fetch line, naming the address (R92). -/
  | undefinedFetch (a : Nat)
  /-- The invalid-opcode line, naming the code (R93). -/
  | invalidCommand (code : Nat)
  /-- The summary of finalization: step count and final address (R103, R105). -/
  | summary (stepCount ip : Nat)
  /-- The value an OUT sends (44_output.md R140). -/
  | output (m : HostInt)
  deriving DecidableEq, Repr

/-- `LOG_TEXT` (R5, R106, D24): the text of each line.  Open, so it has no body (log 6). -/
opaque Config.logText : LogLine → String

/-- `LOG_TEXT` (R5, R106, D24): whether a line is flagged visible.  Open, so it has no body (log 6). -/
opaque Config.logVisible : LogLine → Bool

/-- `TRACE_TEXT` (R5, R100, D33): the "mnemonic+operand text" of a trace record.  Open, so it has no body (log 6). -/
opaque Config.traceText : Mnemonic → Nat → String

/-- What the raw-data encode returns for a constant outside 24 bits, which the spec leaves open (R75, N11, U13; log 7). -/
opaque Config.rawDataOutside : HostInt → HostInt

end Sys2Proof
end

