-- ==== Sys2Proof/Syntax.lean ====
section
/-! DEFINITION. The instructions: one constructor per row of spec/opcode_table.json, in the table's order. -/

namespace Sys2Proof

/-- An instruction of the closed table (30_encoding.md R65, R66) with its operand `v` (R64).  The operand is the
non-negative integer the field spells; `Instr.wellFormed` says which values a field can spell. -/
inductive Instr where
  /-- Load-immediate, primary 0x0 (R110). -/
  | ldc (v : Nat)
  /-- Load-direct, primary 0x1 (R111). -/
  | ldv (v : Nat)
  /-- Store-direct, primary 0x2 (R112). -/
  | stv (v : Nat)
  /-- Add, primary 0x3 (R120). -/
  | add (v : Nat)
  /-- Bitwise and, primary 0x4 (R121). -/
  | and (v : Nat)
  /-- Bitwise or, primary 0x5 (R122). -/
  | or (v : Nat)
  /-- Bitwise exclusive or, primary 0x6 (R123). -/
  | xor (v : Nat)
  /-- Equal-test, primary 0x7 (R124). -/
  | eql (v : Nat)
  /-- Unconditional jump, primary 0x8 (R130). -/
  | jmp (v : Nat)
  /-- Conditional jump, primary 0x9 (R131). -/
  | jmn (v : Nat)
  /-- Indirect load, primary 0xA (R113). -/
  | ldiv (v : Nat)
  /-- Indirect store, primary 0xB (R114). -/
  | stiv (v : Nat)
  /-- The diagnostic/output action, primary 0xC (R140). -/
  | out (v : Nat)
  /-- Halt, extended 0x0 (R132); its operand is decoded and displayed, not read (R69). -/
  | hlt (v : Nat)
  /-- Bitwise negate, extended 0x1 (R125); its operand is decoded and displayed, not read (R69). -/
  | not (v : Nat)
  /-- Rotate-right-24, extended 0x2 (R126); its operand is decoded and displayed, not read (R69). -/
  | rar (v : Nat)
  deriving DecidableEq, Repr

end Sys2Proof
end

