-- ==== Sys2Proof/Machine/State.lean ====
section
/-! DEFINITION. The machine state of 10_state.md R20 as plain data, the reasons a step can stop, and the reset state. -/

namespace Sys2Proof.Machine

/-- The fault reasons of 60_exceptions.md R157.  A fault is a step the spec gives no meaning (R156); each is safe: the
model stops where the source's machine may go on. -/
inductive Fault where
  /-- STV, STIV, ADD, AND, OR, XOR, EQL, JMN, NOT, RAR read the accumulator before any write since reset, on a machine
  whose accumulator is unwritten after reset (R22, D6; log 1): never on one that starts from a value.  Safe. -/
  | accUnwritten
  /-- LDV, ADD, AND, OR, XOR, EQL, LDIV, STIV, OUT read the undefined cell `a` (R43, D8).  Safe. -/
  | undefinedDataRead (a : Nat)
  /-- LDIV, STIV use the indirect address `p` outside 0 to 0xFFFFF (R43, R44, D9).  Safe. -/
  | dataAddressOutOfRange (p : Int)
  /-- The step fetched the value `w` outside 0 to 0xFFFFFF (30_encoding.md R68, D11).  Safe. -/
  | wordOutOfRange (w : Int)
  /-- ADD's exact sum `r` is outside -2^31 to 2^31 - 1 (42_alu.md R120, D5).  Safe. -/
  | hostRangeExceeded (r : Int)
  deriving DecidableEq, Repr

/-- Why the model gives no meaning to a request. -/
inductive Refusal where
  /-- An arm of `exec` without a meaning; no arm answers so.  Safe. -/
  | notModelled (mnemonic : String)
  /-- `resetWith`: the image has no start address, which "cannot run" (70_reset_and_hazards.md R171, U1).  Safe. -/
  | resetStartUndefined
  /-- `resetWith`: the start address is outside 0 to 0xFFFFF (R171).  Safe. -/
  | resetStartOutOfRange (a : Nat)
  /-- `resetWith`: the image has more than 2^20 words (R171).  Safe. -/
  | resetImageTooLong (length : Nat)
  /-- `resetWith`: an image word is not a host integer (R171).  Safe. -/
  | resetImageWordOutOfRange (w : Int)
  deriving DecidableEq, Repr

/-- The halt reasons of R28 and R152. -/
inductive HaltReason where
  | none
  | haltInstr
  | stepCeiling
  | undefinedFetch
  | invalidCommand (code : Nat)
  | cancelled
  deriving DecidableEq, Repr

/-- A trace record `(a, m, v, acc)` of R100 with the text form of `m` and `v`; `acc = none` is the mark `unwritten`. -/
structure TraceRecord where
  addr : Nat
  mnemonic : Mnemonic
  operand : Nat
  /-- The "mnemonic+operand text": what `TRACE_TEXT` gives for `m` and `v`. -/
  text : String
  acc : Option HostInt
  deriving DecidableEq, Repr

/-- What the log channel carries, `(text, visible)` (R106). -/
structure LogRecord where
  /-- Which line of R107 it is, with its contents: the model's own note, since the texts are open (log 6). -/
  line : LogLine
  /-- What `LOG_TEXT` gives as the line's text. -/
  text : String
  /-- What `LOG_TEXT` gives as the line's flag. -/
  visible : Bool
  deriving DecidableEq, Repr

/-- One delivery on a notification channel (R100, R104, R106). -/
inductive Event where
  | trace (r : TraceRecord)
  | log (r : LogRecord)
  | completion
  deriving DecidableEq, Repr

/-- Which notification channels the owner registered (R109). -/
structure Channels where
  trace : Bool
  completion : Bool
  log : Bool
  deriving DecidableEq, Repr

/-- The two flags the caller of a step chooses (R90). -/
structure StepInput where
  silent : Bool
  atomic : Bool
  deriving DecidableEq, Repr

/-- The memory (20_memory.md R40 to R42): the defined cells, as pairs of address and word, addresses strictly rising.  An
unlisted address is an undefined cell. -/
abbrev Memory := List (Nat × HostInt)

/-- The state of one machine (R20), the parameters it was made with (R5), what its registered channels have delivered, and
the caller's flags for its next step. -/
structure State where
  /-- The accumulator; `none` = unwritten, in which only a machine made so starts (R21, R22; log 1). -/
  acc : Option HostInt
  /-- The instruction pointer (R23). -/
  ip : Nat
  /-- The memory (R27). -/
  mem : Memory
  /-- The run flag (R25). -/
  running : Bool
  /-- The step counter (R26). -/
  stepCount : Nat
  /-- The latched reason of the last halt (R28). -/
  haltReason : HaltReason
  /-- Finalization done for this run (R29). -/
  finalized : Bool
  /-- Cooperative tick schedule active (R30). -/
  scheduled : Bool
  /-- The sticky model fault (R31). -/
  fault : Option Fault
  /-- The parameters of R5; written by no step (log 3). -/
  params : Params
  /-- The channels the owner registered (R109); written by no step (log 4). -/
  registered : Channels
  /-- What the registered channels have delivered, oldest first (the model's own field; log 4). -/
  out : List Event
  /-- The caller's flags for the next step (the model's own field; log 5). -/
  input : StepInput
  deriving DecidableEq, Repr

/-- Addresses strictly rise from above `lo`, and each is an address of the machine. -/
def Memory.wfFrom (lo : Nat) : Memory → Bool
  | [] => true
  | (a, _) :: m => decide (lo ≤ a ∧ a < addrSpace) && Memory.wfFrom (a + 1) m

/-- The canonical form of a memory: addresses strictly rising, each below 2^20.  No entry equals what an unlisted address
reads as, since that is "undefined" and an entry holds a word. -/
def Memory.wf (m : Memory) : Bool := Memory.wfFrom 0 m

/-- The state right after `reset(image, startAddress)` (R35, R170), for given parameters and channels, with the memory the
image makes.  The accumulator is as `accAtReset` says: unwritten, as R35 and R170 have it by D6, where that is `none`. -/
def State.initial (p : Params) (ch : Channels) (mem : Memory) (start : Nat) : State where
  acc := p.accAtReset
  ip := start
  mem := mem
  running := false
  stepCount := 0
  haltReason := .none
  finalized := false
  scheduled := false
  fault := none
  params := p
  registered := ch
  out := []
  input := { silent := false, atomic := false }

/-- The machine right after reset, with an image of length 0.  DESIGN CHOICES, unsafe for claims about runs from here: the
start address 0 (log 2), the accumulator's value 0 (log 1), the parameters (log 3), all channels registered (log 4), the flags
(log 5). -/
def State.reset : State :=
  State.initial Params.reset { trace := true, completion := true, log := true } [] 0

end Sys2Proof.Machine
end

