-- ==== Sys2Proof/Machine/HostArith.lean ====
section
/-! DEFINITION. The host operations of 00_scope.md R8 on 32-bit patterns. -/

namespace Sys2Proof.Machine

/-- `x & y` (R8). -/
def hostAnd (x y : HostInt) : HostInt := x &&& y

/-- `x | y` (R8). -/
def hostOr (x y : HostInt) : HostInt := x ||| y

/-- `x ^ y` (R8). -/
def hostXor (x y : HostInt) : HostInt := x ^^^ y

/-- `~x` (R8). -/
def hostNot (x : HostInt) : HostInt := ~~~x

/-- `x >>> n`, the logical shift right (R8). -/
def hostShr (x : HostInt) (n : Nat) : HostInt := x >>> n

/-- `x << n`, the shift left that loses the bits above bit 31 (R8). -/
def hostShl (x : HostInt) (n : Nat) : HostInt := x <<< n

/-- Whether an exact integer is a host integer (R7). -/
def inHostRange (r : Int) : Bool := decide (-2 ^ 31 ≤ r ∧ r ≤ 2 ^ 31 - 1)

/-- `x + y`: the exact integer sum, which faults when it leaves the host range (R8; 42_alu.md R120). -/
def hostAdd (x y : HostInt) : Except Fault HostInt :=
  if inHostRange (x.toInt + y.toInt) then .ok (BitVec.ofInt 32 (x.toInt + y.toInt))
  else .error (.hostRangeExceeded (x.toInt + y.toInt))

/-- The all-ones sentinel -1 on equality, else 0 (42_alu.md R124). -/
def hostEql (x y : HostInt) : HostInt := if x = y then BitVec.ofInt 32 (-1) else 0

/-- The formula of RAR, bit-24 leak included (42_alu.md R126, C4). -/
def hostRar (x : HostInt) : HostInt := hostAnd (hostOr (hostShr x 1) (hostShl x 23)) 0xFFFFFF

end Sys2Proof.Machine
end

