-- ==== Sys2Proof/WellFormed.lean ====
section
/-! DEFINITION. Which operands an instruction's field can spell (30_encoding.md R61, R62, R64). -/

namespace Sys2Proof

/-- A primary operand is a 20-bit field: 0 to 0xFFFFF (R61). -/
def primaryOperandOk (v : Nat) : Bool := decide (v < 2 ^ 20)

/-- An extended operand is a 16-bit field: 0 to 0xFFFF (R62). -/
def extendedOperandOk (v : Nat) : Bool := decide (v < 2 ^ 16)

/-- The instruction's operand fits its field. -/
def Instr.wellFormed : Instr → Bool
  | .ldc v | .ldv v | .stv v | .add v | .and v | .or v | .xor v | .eql v => primaryOperandOk v
  | .jmp v | .jmn v | .ldiv v | .stiv v | .out v => primaryOperandOk v
  | .hlt v | .not v | .rar v => extendedOperandOk v

end Sys2Proof
end

