-- ==== Sys2Proof/Decode.lean ====
section
/-! DEFINITION. Decoding a fetched cell (30_encoding.md R63 to R70), the instruction table, and after it the table's other
function, encode (R71 to R75). -/

namespace Sys2Proof

/-- `w[hi:lo]`: the unsigned integer formed by bits `hi` down to `lo` (00_scope.md R6). -/
def slice (w hi lo : Nat) : Nat := w / 2 ^ lo % 2 ^ (hi - lo + 1)

/-- The primary catalog, opcodes 0x0 to 0xE (R65); 0xD and 0xE are unbound. -/
def primaryEntry : Nat → Option Mnemonic
  | 0x0 => some .ldc
  | 0x1 => some .ldv
  | 0x2 => some .stv
  | 0x3 => some .add
  | 0x4 => some .and
  | 0x5 => some .or
  | 0x6 => some .xor
  | 0x7 => some .eql
  | 0x8 => some .jmp
  | 0x9 => some .jmn
  | 0xA => some .ldiv
  | 0xB => some .stiv
  | 0xC => some .out
  | _ => none

/-- The extended catalog, sub-opcodes 0x0 to 0xF (R66); 0x3 to 0xF are unbound. -/
def extendedEntry : Nat → Option Mnemonic
  | 0x0 => some .hlt
  | 0x1 => some .not
  | 0x2 => some .rar
  | _ => none

/-- The instruction a catalog entry and its operand make. -/
def Mnemonic.toInstr : Mnemonic → Nat → Instr
  | .ldc, v => .ldc v
  | .ldv, v => .ldv v
  | .stv, v => .stv v
  | .add, v => .add v
  | .and, v => .and v
  | .or, v => .or v
  | .xor, v => .xor v
  | .eql, v => .eql v
  | .jmp, v => .jmp v
  | .jmn, v => .jmn v
  | .ldiv, v => .ldiv v
  | .stiv, v => .stiv v
  | .out, v => .out v
  | .hlt, v => .hlt v
  | .not, v => .not v
  | .rar, v => .rar v

/-- The canonical mnemonic of an instruction, as the trace shows it (40_step_engine.md R100). -/
def Instr.mnemonic : Instr → Mnemonic
  | .ldc _ => .ldc
  | .ldv _ => .ldv
  | .stv _ => .stv
  | .add _ => .add
  | .and _ => .and
  | .or _ => .or
  | .xor _ => .xor
  | .eql _ => .eql
  | .jmp _ => .jmp
  | .jmn _ => .jmn
  | .ldiv _ => .ldiv
  | .stiv _ => .stiv
  | .out _ => .out
  | .hlt _ => .hlt
  | .not _ => .not
  | .rar _ => .rar

/-- The display operand of an instruction: its operand field (R70). -/
def Instr.operand : Instr → Nat
  | .ldc v | .ldv v | .stv v | .add v | .and v | .or v | .xor v | .eql v => v
  | .jmp v | .jmn v | .ldiv v | .stiv v | .out v | .hlt v | .not v | .rar v => v

/-- Why a fetched cell spells no instruction. -/
inductive DecodeFailure where
  /-- The cell's value is outside 0 to 0xFFFFFF (R68): the step raises `Fault(WordOutOfRange(w))`. -/
  | wordOutOfRange (w : Int)
  /-- The opcode or sub-opcode is unbound (R67): the step halts with `InvalidCommand(code)`. -/
  | invalidCommand (code : Nat)
  deriving DecidableEq, Repr

/-- `decode(w)` of R63, on a word of `Word24`. -/
def decode (w : Word24) : Except DecodeFailure Instr :=
  let op := slice w.toNat 23 20
  if op = 0xF then
    let sub := slice w.toNat 19 16
    match extendedEntry sub with
    | some m => .ok (m.toInstr (slice w.toNat 15 0))
    | none => .error (.invalidCommand (0xF0 + sub))
  else
    match primaryEntry op with
    | some m => .ok (m.toInstr (slice w.toNat 19 0))
    | none => .error (.invalidCommand op)

/-- Whether a cell's value is in `Word24` (R68). -/
def inWord24 (w : HostInt) : Bool := decide (0 ≤ w.toInt ∧ w.toInt ≤ 0xFFFFFF)

/-- Decoding of any cell the fetch may return: R68's range check, then R63. -/
def decodeCell (w : HostInt) : Except DecodeFailure Instr :=
  if inWord24 w then decode (w.setWidth 24) else .error (.wordOutOfRange w.toInt)

/-- The instruction read from a word whose bits are `w`, numbered as spec/opcode_table.json numbers them: every
instruction is one 24-bit word (R60), so bits 23..0 are the whole of it, and the cell holds that number. -/
def decodeTableWord (nbits w : Nat) : Option Instr :=
  match decodeCell (BitVec.ofNat 32 (w % 2 ^ nbits % 2 ^ 24)) with
  | .ok i => some i
  | .error _ => none

/-- The reverse lookup of R71: a primary mnemonic's opcode, an extended mnemonic's sub-opcode plus 0xF0. -/
def Mnemonic.code : Mnemonic → Nat
  | .ldc => 0x0
  | .ldv => 0x1
  | .stv => 0x2
  | .add => 0x3
  | .and => 0x4
  | .or => 0x5
  | .xor => 0x6
  | .eql => 0x7
  | .jmp => 0x8
  | .jmn => 0x9
  | .ldiv => 0xA
  | .stiv => 0xB
  | .out => 0xC
  | .hlt => 0xF0
  | .not => 0xF1
  | .rar => 0xF2

/-- `encode(mnemonic, operand)`: R72 for a primary code, R73 for an extended one.  The operand is masked to its field. -/
def Mnemonic.encode (m : Mnemonic) (x : HostInt) : Word24 :=
  if m.code < 0xF then
    BitVec.ofNat 24 m.code <<< 20 ||| (x &&& 0xFFFFF#32).setWidth 24
  else
    BitVec.ofNat 24 m.code <<< 16 ||| (x &&& 0xFFFF#32).setWidth 24

/-- The word of an instruction. -/
def Instr.encode (i : Instr) : Word24 := i.mnemonic.encode (BitVec.ofNat 32 i.operand)

/-- The spelling of each canonical mnemonic (R65, R66; `OUT` is the placeholder of D2; log 8). -/
def Mnemonic.spelling : Mnemonic → String
  | .ldc => "LDC"
  | .ldv => "LDV"
  | .stv => "STV"
  | .add => "ADD"
  | .and => "AND"
  | .or => "OR"
  | .xor => "XOR"
  | .eql => "EQL"
  | .jmp => "JMP"
  | .jmn => "JMN"
  | .ldiv => "LDIV"
  | .stiv => "STIV"
  | .out => "OUT"
  | .hlt => "HLT"
  | .not => "NOT"
  | .rar => "RAR"

/-- Every entry of the table, in its order (R34: the table is fixed and closed). -/
def Mnemonic.all : List Mnemonic :=
  [.ldc, .ldv, .stv, .add, .and, .or, .xor, .eql, .jmp, .jmn, .ldiv, .stiv, .out, .hlt, .not, .rar]

/-- From a spelling to its entry: the table's spellings, and HALT for HLT (R74); `none` for an unknown mnemonic (R72).
DESIGN CHOICE, unsafe for a claim about a spelling in other letter case: spellings match letter for letter.  The spec leaves
open whether mnemonics are matched case-insensitively (R79, 91_not_in_source.md N12; log 18).  DESIGN CHOICE: no spelling, DS
included, names the raw-data pseudo-mnemonic of R75 (log 19). -/
def lookupSpelling (name : String) : Option Mnemonic :=
  if name = "HALT" then some .hlt else Mnemonic.all.find? fun m => m.spelling == name

/-- `encode(mnemonic, operand) → word | none` of R72 to R74, by spelling. -/
def encodeSpelling (name : String) (x : HostInt) : Option Word24 :=
  (lookupSpelling name).map fun m => m.encode x

/-- The raw-data pseudo-mnemonic (R75): the operand unmodified.  What it gives outside 24 bits the spec leaves open (N11),
so there the result is free (log 7).  DESIGN CHOICE, unsafe for a claim that a name spells nothing: the spec gives it no
spelling of its own (R78 and D2 spell the directive DS), so it is a function apart and `encodeSpelling` has no name for it
(log 19). -/
def encodeRawData (x : HostInt) : HostInt := if inWord24 x then x else Config.rawDataOutside x

end Sys2Proof
end

