-- ==== Sys2Proof/Machine/Ops.lean ====
section
/-! DEFINITION. The named operations over memory and registers: the primitives of 00_scope.md R9, the halt, the
notification channels and finalization. -/

namespace Sys2Proof.Machine

/-- Whether an integer is in `Addr`, 0 to 0xFFFFF (R7). -/
def inAddr (a : Int) : Bool := decide (0 ≤ a ∧ a ≤ 0xFFFFF)

/-- The word of cell `a`, or `none` where the cell is undefined (20_memory.md R42). -/
def Memory.read : Memory → Nat → Option HostInt
  | [], _ => none
  | (b, w) :: m, a => if b = a then some w else Memory.read m a

/-- Cell `a` holds `v` (R44); the other cells are as they were.  Keeps the addresses strictly rising. -/
def Memory.write : Memory → Nat → HostInt → Memory
  | [], a, v => [(a, v)]
  | (b, w) :: m, a, v =>
    if a < b then (a, v) :: (b, w) :: m
    else if a = b then (a, v) :: m
    else (b, w) :: Memory.write m a v

/-- `MemRead(a, 1)` (R43). -/
def memRead (s : State) (a : Int) : Except Fault HostInt :=
  if inAddr a then
    match Memory.read s.mem a.toNat with
    | some w => .ok w
    | none => .error (.undefinedDataRead a.toNat)
  else .error (.dataAddressOutOfRange a)

/-- The state with another memory. -/
def setMem (m : Memory) (s : State) : State := { s with mem := m }

/-- `MemWrite(a, 1, v)` (R44). -/
def memWrite (s : State) (a : Int) (v : HostInt) : Except Fault State :=
  if inAddr a then .ok (setMem (Memory.write s.mem a.toNat v) s)
  else .error (.dataAddressOutOfRange a)

/-- `Fetch(a)` (R45); `none` is `NoWord`. -/
def fetch (s : State) (a : Nat) : Option HostInt :=
  if inAddr a then Memory.read s.mem a else none

/-- `acc`: read the accumulator; an unwritten one faults (R9; 10_state.md R22).  No machine made with a value in it, as
`State.reset` is, ever has it unwritten (log 1). -/
def readAcc (s : State) : Except Fault HostInt :=
  match s.acc with
  | some x => .ok x
  | none => .error .accUnwritten

/-- `acc <- v` (R9). -/
def setAcc (v : HostInt) (s : State) : State := { s with acc := some v }

/-- `ip <- v` (R9). -/
def setIp (v : Nat) (s : State) : State := { s with ip := v }

/-- `halt(reason)` (60_exceptions.md R151): the one operation by which every terminating event stops the run. -/
def halt (r : HaltReason) (s : State) : State := { s with running := false, haltReason := r }

/-- `stepCount <- stepCount + 1` (40_step_engine.md R91). -/
def countStep (s : State) : State := { s with stepCount := s.stepCount + 1 }

/-- Whether the owner registered the channel an event goes to (R109). -/
def Channels.takes (ch : Channels) : Event → Bool
  | .trace _ => ch.trace
  | .log _ => ch.log
  | .completion => ch.completion

/-- What reaches the owner when an event is sent: the event, or nothing on an unregistered channel (R109). -/
def delivered (s : State) (e : Event) : List Event := if s.registered.takes e then [e] else []

/-- Send an event on its channel. -/
def emit (e : Event) (s : State) : State := { s with out := s.out ++ delivered s e }

/-- The record of a line: its text and flag are `LOG_TEXT`'s (R5, R106). -/
def LogRecord.of (l : LogLine) : LogRecord :=
  { line := l, text := Config.logText l, visible := Config.logVisible l }

/-- The trace record of the address `a`, the mnemonic `m`, the operand `v` and the accumulator: its text is `TRACE_TEXT`'s
(R5, R100). -/
def TraceRecord.of (a : Nat) (m : Mnemonic) (v : Nat) (acc : Option HostInt) : TraceRecord :=
  { addr := a, mnemonic := m, operand := v, text := Config.traceText m v, acc := acc }

/-- `emitLog(text, visible)` (R9, R106): send a text and its flag. -/
def emitLog (r : LogRecord) (s : State) : State := emit (.log r) s

/-- `emitTrace` (R100): the record of the instruction `i` fetched at `a`, with the accumulator as it now stands. -/
def emitTrace (a : Nat) (i : Instr) (s : State) : State :=
  emit (.trace (.of a i.mnemonic i.operand s.acc)) s

/-- `notifyCompletion()` (R104). -/
def notifyCompletion (s : State) : State := emit .completion s

/-- The finalized flag (10_state.md R29). -/
def setFinalized (b : Bool) (s : State) : State := { s with finalized := b }

/-- The schedule flag (R30). -/
def setScheduled (b : Bool) (s : State) : State := { s with scheduled := b }

/-- `finalize()` (R103): once per run. -/
def finalize (s : State) : State :=
  if s.finalized then s
  else notifyCompletion (emitLog (.of (.summary s.stepCount s.ip)) (setFinalized true s))

/-- `if not atomic: finalize()` (R90). -/
def finalizeUnless (atomic : Bool) (s : State) : State := if atomic then s else finalize s

/-- `fault <- some f`, written once and kept (10_state.md R31; 60_exceptions.md R156): what the host finds in the state a
faulting step was asked of. -/
def recordFault (f : Fault) (s : State) : State := { s with fault := s.fault.or (some f) }

/-- The outcome of an action: the state its primitives end in, or the first fault one of them raised (R159). -/
def finish : Except Fault State → Host.Outcome State Fault Refusal
  | .ok s => .next s
  | .error f => .fault f

end Sys2Proof.Machine
end

