-- ==== Sys2Proof/Machine/Operands.lean ====
section
/-! DEFINITION. The three addressing modes of 41_load_store.md R115, and jump targets. -/

namespace Sys2Proof.Machine

/-- `zext_20(v)` (00_scope.md R6). -/
def zext20 (v : Nat) : Nat := v % 2 ^ 20

/-- Immediate mode: the value `zext_20(v)` (R115). -/
def immediate (v : Nat) : HostInt := BitVec.ofNat 32 (zext20 v)

/-- Direct mode: the effective address is `zext_20(v)`, always in `Addr` (R115). -/
def directAddr (v : Nat) : Int := (zext20 v : Int)

/-- Indirect mode: the effective address is the whole pointer, as an integer (R115); `memRead` and `memWrite` check it. -/
def indirectAddr (p : HostInt) : Int := p.toInt

/-- The word a direct operand names. -/
def readDirect (v : Nat) (s : State) : Except Fault HostInt := memRead s (directAddr v)

/-- A jump's target: the absolute address `zext_20(v)` (43_control.md R133). -/
def jumpTarget (v : Nat) : Nat := zext20 v

end Sys2Proof.Machine
end

