-- ==== Sys2Proof/Machine/Alu.lean ====
section
/-! DEFINITION. Arithmetic and logic (42_alu.md): ADD, AND, OR, XOR, EQL, NOT, RAR. -/

namespace Sys2Proof.Machine

/-- The shape of the five two-operand instructions: `m <- MemRead(v, 1); x <- acc; acc <- f x m` (R120 to R124), the memory
operand read first (60_exceptions.md R159). -/
def accWithMemory (f : HostInt → HostInt → Except Fault HostInt) (v : Nat) (s : State) :
    Host.Outcome State Fault Refusal :=
  finish do
    let m ← readDirect v s
    let x ← readAcc s
    let r ← f x m
    return setAcc r s

/-- The shape of NOT and RAR: `x <- acc; acc <- f x` (R125, R126). -/
def accAlone (f : HostInt → HostInt) (s : State) : Host.Outcome State Fault Refusal :=
  finish do
    let x ← readAcc s
    return setAcc (f x) s

/-- ADD v (R120). -/
def execAdd (v : Nat) (s : State) : Host.Outcome State Fault Refusal :=
  accWithMemory hostAdd v s

/-- AND v (R121). -/
def execAnd (v : Nat) (s : State) : Host.Outcome State Fault Refusal :=
  accWithMemory (fun x m => .ok (hostAnd x m)) v s

/-- OR v (R122). -/
def execOr (v : Nat) (s : State) : Host.Outcome State Fault Refusal :=
  accWithMemory (fun x m => .ok (hostOr x m)) v s

/-- XOR v (R123). -/
def execXor (v : Nat) (s : State) : Host.Outcome State Fault Refusal :=
  accWithMemory (fun x m => .ok (hostXor x m)) v s

/-- EQL v (R124). -/
def execEql (v : Nat) (s : State) : Host.Outcome State Fault Refusal :=
  accWithMemory (fun x m => .ok (hostEql x m)) v s

/-- NOT (R125); the operand is not read (R69). -/
def execNot (_v : Nat) (s : State) : Host.Outcome State Fault Refusal :=
  accAlone hostNot s

/-- RAR (R126); the operand is not read (R69). -/
def execRar (_v : Nat) (s : State) : Host.Outcome State Fault Refusal :=
  accAlone hostRar s

end Sys2Proof.Machine
end

