-- ==== Sys2Proof/Machine/Flags.lean ====
section
/-! DEFINITION. The machine has no status flags (10_state.md R32): the only condition is the accumulator's sign. -/

namespace Sys2Proof.Machine

/-- `x < 0` on the integer value, "not a masked 24-bit view" (R32; 00_scope.md R8). -/
def isNegative (x : HostInt) : Bool := decide (x.toInt < 0)

end Sys2Proof.Machine
end

