-- ==== Sys2Proof/Machine/Control.lean ====
section
/-! DEFINITION. Control transfer (43_control.md): JMP, JMN, HLT.  The fetch has already advanced `ip` (R133). -/

namespace Sys2Proof.Machine

/-- JMP v (R130): `ip <- zext_20(v)`. -/
def execJmp (v : Nat) (s : State) : Host.Outcome State Fault Refusal :=
  .next (setIp (jumpTarget v) s)

/-- JMN v (R131): taken when the accumulator is negative. -/
def execJmn (v : Nat) (s : State) : Host.Outcome State Fault Refusal :=
  finish do
    let x ← readAcc s
    return if isNegative x then setIp (jumpTarget v) s else s

/-- HLT (R132): `halt(HaltInstr); ip <- ip - 1`; the operand is not read (R69). -/
def execHlt (_v : Nat) (s : State) : Host.Outcome State Fault Refusal :=
  .next (setIp (s.ip - 1) (halt .haltInstr s))

end Sys2Proof.Machine
end

