-- ==== Sys2Proof/Machine/LoadStore.lean ====
section
/-! DEFINITION. Loads and stores (41_load_store.md): LDC, LDV, STV, LDIV, STIV. -/

namespace Sys2Proof.Machine

/-- LDC v (R110): `acc <- zext_20(v)`. -/
def execLdc (v : Nat) (s : State) : Host.Outcome State Fault Refusal :=
  .next (setAcc (immediate v) s)

/-- LDV v (R111): `acc <- MemRead(v, 1)`. -/
def execLdv (v : Nat) (s : State) : Host.Outcome State Fault Refusal :=
  finish do
    let m ← readDirect v s
    return setAcc m s

/-- STV v (R112): `x <- acc; MemWrite(v, 1, x)`. -/
def execStv (v : Nat) (s : State) : Host.Outcome State Fault Refusal :=
  finish do
    let x ← readAcc s
    memWrite s (directAddr v) x

/-- LDIV v (R113): `p <- MemRead(v, 1); acc <- MemRead(p, 1)`. -/
def execLdiv (v : Nat) (s : State) : Host.Outcome State Fault Refusal :=
  finish do
    let p ← readDirect v s
    let m ← memRead s (indirectAddr p)
    return setAcc m s

/-- STIV v (R114): `p <- MemRead(v, 1); x <- acc; MemWrite(p, 1, x)`. -/
def execStiv (v : Nat) (s : State) : Host.Outcome State Fault Refusal :=
  finish do
    let p ← readDirect v s
    let x ← readAcc s
    memWrite s (indirectAddr p) x

end Sys2Proof.Machine
end

