-- ==== Sys2Proof/Machine/Output.lean ====
section
/-! DEFINITION. Output (44_output.md): OUT. -/

namespace Sys2Proof.Machine

/-- OUT v (R140): `m <- MemRead(v, 1); emitLog(LOG_TEXT.output(m), visible)`, its only effect. -/
def execOut (v : Nat) (s : State) : Host.Outcome State Fault Refusal :=
  finish do
    let m ← readDirect v s
    return emitLog (.of (.output m)) s

end Sys2Proof.Machine
end

