-- ==== Sys2Proof/Machine/Dispatch.lean ====
section
/-! DEFINITION. The semantic action of each instruction (40_step_engine.md R93), on the state with `ip` advanced. -/

namespace Sys2Proof.Machine

def exec (i : Instr) (s : State) : Host.Outcome State Fault Refusal :=
  match i with
  | .ldc v => Sys2Proof.Machine.execLdc v s
  | .ldv v => Sys2Proof.Machine.execLdv v s
  | .stv v => Sys2Proof.Machine.execStv v s
  | .add v => Sys2Proof.Machine.execAdd v s
  | .and v => Sys2Proof.Machine.execAnd v s
  | .or v => Sys2Proof.Machine.execOr v s
  | .xor v => Sys2Proof.Machine.execXor v s
  | .eql v => Sys2Proof.Machine.execEql v s
  | .jmp v => Sys2Proof.Machine.execJmp v s
  | .jmn v => Sys2Proof.Machine.execJmn v s
  | .ldiv v => Sys2Proof.Machine.execLdiv v s
  | .stiv v => Sys2Proof.Machine.execStiv v s
  | .out v => Sys2Proof.Machine.execOut v s
  | .hlt v => Sys2Proof.Machine.execHlt v s
  | .not v => Sys2Proof.Machine.execNot v s
  | .rar v => Sys2Proof.Machine.execRar v s

end Sys2Proof.Machine
end

