-- ==== Sys2Proof/Machine/Engine.lean ====
section
/-! DEFINITION. One step of the engine (40_step_engine.md R90 to R94, R99 to R102): count, ceiling, fetch, advance, decode,
dispatch, trace, finalize. -/

namespace Sys2Proof.Machine

/-- `stepCount >= STEP_CEILING`, tested after the increment (R91). -/
def ceilingReached (s : State) : Bool := decide (s.params.stepCeiling ≤ s.stepCount)

/-- The end of a step that trips the ceiling (R91). -/
def tripCeiling (atomic : Bool) (s : State) : State :=
  finalizeUnless atomic (emitLog (.of .maxRuntime) (halt .stepCeiling s))

/-- `ip` after an undefined fetch at `ip`: unchanged, or one further, as `UNDEF_FETCH_ADVANCES_IP` says (R92, D12). -/
def ipAfterUndefinedFetch (s : State) : Nat := if s.params.undefFetchAdvancesIp then s.ip + 1 else s.ip

/-- The end of a step whose fetch finds no defined word (R92). -/
def haltUndefinedFetch (atomic : Bool) (s : State) : State :=
  finalizeUnless atomic
    (emitLog (.of (.undefinedFetch s.ip)) (halt .undefinedFetch (setIp (ipAfterUndefinedFetch s) s)))

/-- The end of a step whose word decodes to no instruction: no trace, no finalization (R93), `ip` one past the word. -/
def haltInvalidCommand (code : Nat) (s : State) : State :=
  emitLog (.of (.invalidCommand code)) (halt (.invalidCommand code) (setIp (s.ip + 1) s))

/-- The word executed at `a` and the word just below it are both the zero word (R102, C1). -/
def zeroPadding (a : Nat) (w : HostInt) (s : State) : Bool :=
  decide (w = 0 ∧ 1 ≤ a ∧ Memory.read s.mem (a - 1) = some 0)

/-- The trace record of a dispatched step, unless silent (R101) or zero padding (R102). -/
def traceUnless (silent : Bool) (a : Nat) (w : HostInt) (i : Instr) (s : State) : State :=
  if silent || zeroPadding a w s then s else emitTrace a i s

/-- `if not atomic and not running: finalize()` after the action (R94). -/
def finalizeIfHalted (atomic : Bool) (s : State) : State :=
  if s.running then s else finalizeUnless atomic s

/-- What a step adds after the action: the trace record, then finalization (R90, R94, R100). -/
def afterAction (silent atomic : Bool) (a : Nat) (w : HostInt) (i : Instr) (s : State) : State :=
  finalizeIfHalted atomic (traceUnless silent a w i s)

/-- Advance and dispatch (R92, R93): the action runs on the state with `ip` one past the fetched word. -/
def dispatch (silent atomic : Bool) (w : HostInt) (i : Instr) (s : State) :
    Host.Outcome State Fault Refusal :=
  match exec i (setIp (s.ip + 1) s) with
  | .next t => .next (afterAction silent atomic s.ip w i t)
  | .fault f => .fault f
  | .refused r => .refused r

/-- Decode the fetched cell, and run it (R93; R68 for a cell outside `Word24`). -/
def runWord (silent atomic : Bool) (w : HostInt) (s : State) : Host.Outcome State Fault Refusal :=
  match decodeCell w with
  | .error (.wordOutOfRange x) => .fault (.wordOutOfRange x)
  | .error (.invalidCommand code) => .next (haltInvalidCommand code s)
  | .ok i => dispatch silent atomic w i s

/-- Fetch at `ip` and go on (R92), the counter already advanced and below the ceiling. -/
def fetchAndRun (silent atomic : Bool) (s : State) : Host.Outcome State Fault Refusal :=
  match fetch s s.ip with
  | none => .next (haltUndefinedFetch atomic s)
  | some w => runWord silent atomic w s

/-- A step once its counter is advanced: the ceiling check, else fetch (R91, R92). -/
def checkAndRun (silent atomic : Bool) (s : State) : Host.Outcome State Fault Refusal :=
  if ceilingReached s then .next (tripCeiling atomic s) else fetchAndRun silent atomic s

/-- `step(silent, atomic)` of R90, in any run state (R99).  A state with a fault has no further step: it answers the fault it
keeps (10_state.md R31; 60_exceptions.md R156). -/
def stepWith (silent atomic : Bool) (s : State) : Host.Outcome State Fault Refusal :=
  match s.fault with
  | some f => .fault f
  | none => checkAndRun silent atomic (countStep s)

/-- The cell of a 24-bit word stored where the next step fetches, at `ip` (log 2). -/
def placeWord (w : Nat) (s : State) : State :=
  setMem (Memory.write s.mem s.ip (BitVec.ofNat 32 w)) s

end Sys2Proof.Machine
end

