-- ==== Sys2Proof/Machine/Step.lean ====
section
/-! DEFINITION. The machine's step, and the placing of one instruction where it fetches. -/

namespace Sys2Proof.Machine

/-- One step of the machine: R90's `step(silent, atomic)` with the two flags the caller put into the state (log 5). -/
def step (s : State) : Host.Outcome State Fault Refusal := stepWith s.input.silent s.input.atomic s

/-- `s` with the instruction whose bits are `w` (numbered as spec/opcode_table.json numbers them) in the cell `ip` names,
where the next step fetches.  It stands for the loading of a program by the host (log 2). -/
def State.withFetchWord (s : State) (nbits w : Nat) : State := placeWord (w % 2 ^ nbits % 2 ^ 24) s

end Sys2Proof.Machine
end

