-- ==== Sys2Proof/Machine/HostOps.lean ====
section
/-! DEFINITION. The host interface (40_step_engine.md R95 to R99, R108; 70_reset_and_hazards.md R170, R171): what the owner
may do between steps, and what it reads. -/

namespace Sys2Proof.Machine

/-- `start()` (R95).  Not allowed on a state with a fault, which answers the fault it keeps (R156). -/
def start (s : State) : Host.Outcome State Fault Refusal :=
  match s.fault with
  | some f => .fault f
  | none => .next { s with running := true, haltReason := .none, finalized := false }

/-- At most `n` silent, non-atomic steps while running: the loop of `run()` (R96). -/
def runLoop : Nat → State → Host.Outcome State Fault Refusal
  | 0, s => .next s
  | n + 1, s =>
    if s.running then
      match stepWith true false s with
      | .next t => runLoop n t
      | .fault f => .fault f
      | .refused r => .refused r
    else .next s

/-- R96's bound on the steps of a run: from a counter `k` at most `max(1, STEP_CEILING - k)`. -/
def runBound (s : State) : Nat := max 1 (s.params.stepCeiling - s.stepCount)

/-- `run()` (R96): start, then silent steps until not running.  The loop is given its bound as fuel, which always suffices. -/
def run (s : State) : Host.Outcome State Fault Refusal :=
  match start s with
  | .next t => runLoop (runBound t) t
  | .fault f => .fault f
  | .refused r => .refused r

/-- `startCooperative()` (R97): start, and schedule the repeating tick. -/
def startCooperative (s : State) : Host.Outcome State Fault Refusal :=
  match start s with
  | .next t => .next (setScheduled true t)
  | .fault f => .fault f
  | .refused r => .refused r

/-- `if not running: scheduled <- false`, the end of a tick (R97). -/
def unscheduleIfHalted (s : State) : State := if s.running then s else setScheduled false s

/-- `tick()` on a state without a fault (R97): a traced, non-atomic step while running. -/
def tickRunning (s : State) : Host.Outcome State Fault Refusal :=
  if s.running then
    match stepWith false false s with
    | .next t => .next (unscheduleIfHalted t)
    | .fault f => .fault f
    | .refused r => .refused r
  else .next (unscheduleIfHalted s)

/-- `tick()` (R97); a state with a fault admits none (R156). -/
def tick (s : State) : Host.Outcome State Fault Refusal :=
  match s.fault with
  | some f => .fault f
  | none => if s.scheduled then tickRunning s else .next s

/-- `if running: halt(Cancelled)` (R98). -/
def haltIfRunning (s : State) : State := if s.running then halt .cancelled s else s

/-- `cancel()` (R98); a state with a fault admits none (R156). -/
def cancel (s : State) : Host.Outcome State Fault Refusal :=
  match s.fault with
  | some f => .fault f
  | none => .next (finalize (haltIfRunning (setScheduled false s)))

/-- The memory an image makes: its words at addresses from `base` up, densely (20_memory.md R42; R170). -/
def imageMemory : Nat → List Int → Memory
  | _, [] => []
  | base, w :: ws => (base, BitVec.ofInt 32 w) :: imageMemory (base + 1) ws

/-- `reset(image, startAddress)` (R170), refused where R171 refuses it; `none` is the assembler's undefined start address
(30_encoding.md R81). -/
def resetWith (p : Params) (ch : Channels) (image : List Int) (startAddress : Option Nat) :
    Host.Outcome State Fault Refusal :=
  match startAddress with
  | none => .refused .resetStartUndefined
  | some a =>
    if addrSpace ≤ a then .refused (.resetStartOutOfRange a)
    else if addrSpace < image.length then .refused (.resetImageTooLong image.length)
    else
      match image.find? fun w => !inHostRange w with
      | some w => .refused (.resetImageWordOutOfRange w)
      | none => .next (State.initial p ch (imageMemory 0 image) a)

/-- The host's operations on a machine that exists (R108). -/
inductive HostOp where
  | start
  | step (silent atomic : Bool)
  | run
  | startCooperative
  | tick
  | cancel
  deriving DecidableEq, Repr

/-- One host operation (R108). -/
def perform (op : HostOp) (s : State) : Host.Outcome State Fault Refusal :=
  match op with
  | .start => start s
  | .step silent atomic => stepWith silent atomic s
  | .run => run s
  | .startCooperative => startCooperative s
  | .tick => tick s
  | .cancel => cancel s

/-- The machine the host has after a step or a host operation of one step: the next state, or the state it was asked of with
the fault recorded (R156; log 10). -/
def settle (s : State) : Host.Outcome State Fault Refusal → State
  | .next t => t
  | .fault f => recordFault f s
  | .refused _ => s

/-- The machine after at most `n` steps of the loop of `run()` (R96): a step that faults is recorded in the state it was asked
of, and ends the loop (R156). -/
def afterRunLoop : Nat → State → State
  | 0, s => s
  | n + 1, s =>
    if s.running && s.fault.isNone then afterRunLoop n (settle s (stepWith true false s)) else s

/-- The machine after `run()` (R96). -/
def afterRun (s : State) : State :=
  match start s with
  | .next t => afterRunLoop (runBound t) t
  | .fault _ => s
  | .refused _ => s

/-- The machine after a host operation. -/
def afterOp (op : HostOp) (s : State) : State :=
  match op with
  | .run => afterRun s
  | .start => settle s (start s)
  | .step silent atomic => settle s (stepWith silent atomic s)
  | .startCooperative => settle s (startCooperative s)
  | .tick => settle s (tick s)
  | .cancel => settle s (cancel s)

/-- The values the host reads (R108, and `finalized` and `scheduled` by 10_state.md R33). -/
structure HostView where
  acc : Option HostInt
  ip : Nat
  mem : Memory
  running : Bool
  stepCount : Nat
  haltReason : HaltReason
  finalized : Bool
  scheduled : Bool
  fault : Option Fault
  deriving DecidableEq, Repr

/-- What the host reads of a state (R33, R108). -/
def hostView (s : State) : HostView :=
  { acc := s.acc, ip := s.ip, mem := s.mem, running := s.running, stepCount := s.stepCount
    haltReason := s.haltReason, finalized := s.finalized, scheduled := s.scheduled, fault := s.fault }

/-- Several machines side by side, each owning its state (20_memory.md R54; 60_exceptions.md R164): an operation on the
`n`-th. -/
def performAt (n : Nat) (op : HostOp) (machines : List State) : List State :=
  machines.modify n (afterOp op)

end Sys2Proof.Machine
end

