-- ==== Sys2Proof/Safety.lean ====
section
/-! DEFINITION. What holds of every machine: the invariant, the states a host can bring a machine to, and the terms the
statements use. -/

namespace Sys2Proof.Machine

/-- The codes a decode failure can name (60_exceptions.md R153). -/
def failureCode (c : Nat) : Prop := c = 0xD ∨ c = 0xE ∨ (0xF3 ≤ c ∧ c ≤ 0xFF)

/-- The invariant of the machine. -/
structure State.Inv (s : State) : Prop where
  /-- The memory keeps its canonical form, and lists only addresses below 2^20 (20_memory.md R40). -/
  memory : s.mem.wf = true
  /-- `ip` is at most 2^20 (10_state.md R23), where an undefined fetch does not advance it (log 9). -/
  ipBound : s.params.undefFetchAdvancesIp = false → s.ip ≤ addrSpace
  /-- A running machine has no halt reason (R28, R95, R151). -/
  runningReason : s.running = true → s.haltReason = .none
  /-- A running machine's run is not finalized (R29, R95, R103). -/
  runningOpen : s.running = true → s.finalized = false
  /-- A decode failure names an unbound opcode or sub-opcode (R153). -/
  reasonCode : ∀ c, s.haltReason = .invalidCommand c → failureCode c

/-- The states a machine passes through: those an admitted `reset` creates, and those host operations lead to, recorded faults
among them (R108, R156, R170). -/
inductive Reachable : State → Prop where
  | reset {p ch image start s} : resetWith p ch image start = .next s → Reachable s
  | op {s} (o : HostOp) : Reachable s → Reachable (afterOp o s)

/-- How many completion notifications the channel has delivered (40_step_engine.md R104). -/
def completions (s : State) : Nat := s.out.count .completion

/-- The step of `s` fetches the word `w` and decodes it to `i`: no fault, below the ceiling, a defined word at `ip` (R90). -/
structure Dispatches (s : State) (w : HostInt) (i : Instr) : Prop where
  noFault : s.fault = none
  below : s.stepCount + 1 < s.params.stepCeiling
  fetched : fetch s s.ip = some w
  decoded : decodeCell w = .ok i

/-- The state an action sees: the step counted, and `ip` one past the fetched word (R90, R92). -/
def actionState (s : State) : State := { s with stepCount := s.stepCount + 1, ip := s.ip + 1 }

/-- What finalization delivers in state `s` at the end of a step or a cancellation: nothing if the run is finalized, else the
summary and the completion (R103 to R105). -/
def finalEvents (s : State) : List Event :=
  if s.finalized then [] else delivered s (.log (.of (.summary s.stepCount s.ip))) ++ delivered s .completion

/-- The trace record of the word `w` at `a`, run as `i`, in the state `u` its action left (R100), unless it is zero padding
(R102). -/
def traceEvents (a : Nat) (w : HostInt) (i : Instr) (u : State) : List Event :=
  if w = 0 ∧ 1 ≤ a ∧ Memory.read u.mem (a - 1) = some 0 then []
  else delivered u (.trace (.of a i.mnemonic i.operand u.acc))

/-- Whether an event is a trace record. -/
def Event.isTrace : Event → Bool
  | .trace _ => true
  | .log _ => false
  | .completion => false

/-- The trace records among what the channels have delivered (R100). -/
def traces (s : State) : List Event := s.out.filter Event.isTrace

/-- A host operation that starts a run (R95 to R97). -/
def HostOp.starts : HostOp → Bool
  | .start => true
  | .run => true
  | .startCooperative => true
  | .step _ _ => false
  | .tick => false
  | .cancel => false

/-- Two outcomes agree: next states related by `r`, the same fault, or the same refusal. -/
def outcomesAgree (r : State → State → Prop) :
    Host.Outcome State Fault Refusal → Host.Outcome State Fault Refusal → Prop
  | .next t, .next u => r t u
  | .fault f, .fault g => f = g
  | .refused a, .refused b => a = b
  | .next _, .fault _ => False
  | .next _, .refused _ => False
  | .fault _, .next _ => False
  | .fault _, .refused _ => False
  | .refused _, .next _ => False
  | .refused _, .fault _ => False

/-- The part of the state a program can see: accumulator, instruction pointer, memory (10_state.md R33). -/
def sameProgramState (s t : State) : Prop := t.acc = s.acc ∧ t.ip = s.ip ∧ t.mem = s.mem

/-- The address a store instruction stores to, computed as its meaning computes it: direct for STV, indirect for STIV. -/
def storeAddress (i : Instr) (s : State) : Option Int :=
  match i with
  | .stv v => some (directAddr v)
  | .stiv v => (Memory.read s.mem (zext20 v)).map indirectAddr
  | .ldc _ | .ldv _ | .add _ | .and _ | .or _ | .xor _ | .eql _ => none
  | .jmp _ | .jmn _ | .ldiv _ | .out _ | .hlt _ | .not _ | .rar _ => none

/-- The instructions that read a memory operand at their operand's address (60_exceptions.md R157). -/
def readsOperandCell : Instr → Bool
  | .ldv _ | .add _ | .and _ | .or _ | .xor _ | .eql _ | .ldiv _ | .stiv _ | .out _ => true
  | .ldc _ | .stv _ | .jmp _ | .jmn _ | .hlt _ | .not _ | .rar _ => false

/-- The instructions that read the accumulator (10_state.md R21, 60_exceptions.md R157). -/
def readsAcc : Instr → Bool
  | .stv _ | .stiv _ | .add _ | .and _ | .or _ | .xor _ | .eql _ | .jmn _ | .not _ | .rar _ => true
  | .ldc _ | .ldv _ | .ldiv _ | .jmp _ | .out _ | .hlt _ => false

/-- The instructions that write the accumulator (10_state.md R21). -/
def writesAcc : Instr → Bool
  | .ldc _ | .ldv _ | .ldiv _ | .add _ | .and _ | .or _ | .xor _ | .eql _ | .not _ | .rar _ => true
  | .stv _ | .stiv _ | .jmp _ | .jmn _ | .out _ | .hlt _ => false

/-- The instructions that use an indirect address (41_load_store.md R115). -/
def usesPointer : Instr → Bool
  | .ldiv _ | .stiv _ => true
  | .ldc _ | .ldv _ | .stv _ | .add _ | .and _ | .or _ | .xor _ | .eql _ => false
  | .jmp _ | .jmn _ | .out _ | .hlt _ | .not _ | .rar _ => false

/-- A two-operand instruction faults on an undefined operand cell, and then on an unwritten accumulator (60_exceptions.md
R159). -/
def operandFaults (i : Instr) (v : Nat) (s : State) : Prop :=
  (Memory.read s.mem v = none → exec i s = .fault (.undefinedDataRead v)) ∧
    (Memory.read s.mem v ≠ none → s.acc = none → exec i s = .fault .accUnwritten)

end Sys2Proof.Machine
end

