-- ==== Sys2Proof/Certificates/Slice0/Obligations.lean ====
section
/-! DEFINITION. The statements for the provers, from the spec's numbered rules.  Rules marked [decision: D<n>] or [derived] in
the spec are its own choices, so a statement resting on one is 'derived' in OBLIGATIONS.json. -/

open Sys2Proof Sys2Proof.Machine

/-! Encoding -/

/-- A few words written out bit by bit from R61, R62, R65, R66, one of each family and two that spell nothing (R67).  The
numbers of the entries are the spec's decision D1. -/
def Obligations.SpecWordsDecodeAsTheTableSays : Prop :=
  decode 0x0FFFFF = .ok (.ldc 0xFFFFF) ∧ decode 0xBABCDE = .ok (.stiv 0xABCDE) ∧
    decode 0x3ABCDE = .ok (.add 0xABCDE) ∧ decode 0x9ABCDE = .ok (.jmn 0xABCDE) ∧
    decode 0xCABCDE = .ok (.out 0xABCDE) ∧ decode 0xF1BEEF = .ok (.not 0xBEEF) ∧
    decode 0xE12345 = .error (.invalidCommand 0xE) ∧ decode 0xF30000 = .error (.invalidCommand 0xF3)

/-- The cell that holds the word of a well-formed instruction decodes to it, every operand at every value its field admits
(R63, R64, R72, R73). -/
def Obligations.CellOfEncodedInstructionDecodesToIt : Prop :=
  ∀ i : Instr, i.wellFormed = true → decodeCell (i.encode.setWidth 32) = .ok i

/-- R76, whole: the round trip of every entry and operand in range, HALT read as HLT; an extended encoding has bits [23:20] =
0xF and keeps exactly 16 operand bits, a primary one has not and keeps exactly 20.  The raw-data pseudo-mnemonic is no entry
that decode gives. -/
def Obligations.EncodeThenDecodeGivesTheEntryBack : Prop :=
  (∀ (m : Mnemonic) (x : HostInt), x.toNat < (if m.code < 0xF then 2 ^ 20 else 2 ^ 16) →
      ∃ i, decode (m.encode x) = .ok i ∧ i.mnemonic = m ∧ i.operand = x.toNat) ∧
    (∀ x : HostInt, encodeSpelling "HALT" x = some (Mnemonic.hlt.encode x)) ∧
    (∀ (m : Mnemonic) (x : HostInt), 0xF ≤ m.code →
      slice (m.encode x).toNat 23 20 = 0xF ∧ slice (m.encode x).toNat 15 0 = x.toNat % 2 ^ 16) ∧
    (∀ (m : Mnemonic) (x : HostInt), m.code < 0xF →
      slice (m.encode x).toNat 23 20 ≠ 0xF ∧ slice (m.encode x).toNat 19 0 = x.toNat % 2 ^ 20) ∧
    (∀ w i, decode w = .ok i → i.mnemonic ∈ Mnemonic.all)

/-- Each word that spells an instruction spells one well-formed instruction, which encodes to that word: no bit of it is
dropped, the ignored operand of HLT, NOT and RAR included (R69, R70). -/
def Obligations.DecodedWordEncodesBackToItself : Prop :=
  ∀ (w : Word24) (i : Instr), decode w = .ok i → i.wellFormed = true ∧ i.encode = w

/-- Exactly the words 0xD00000 to 0xEFFFFF and 0xF30000 to 0xFFFFFF spell no instruction, and the failure names the opcode, or
0xF0 plus the sub-opcode (R63, R67; the code is decision D34). -/
def Obligations.DecodeFailsExactlyOnUnboundWords : Prop :=
  ∀ (w : Word24) (code : Nat), decode w = .error (.invalidCommand code) ↔
    (0xD00000 ≤ w.toNat ∧ w.toNat < 0xF00000 ∧ code = w.toNat / 2 ^ 20) ∨
      (0xF30000 ≤ w.toNat ∧ code = w.toNat / 2 ^ 16)

/-- A cell outside 0 to 0xFFFFFF is not decoded, and any other is decoded as the word of that value (R68; decision D11). -/
def Obligations.OnlyCellsInWord24AreDecoded : Prop :=
  ∀ w : HostInt,
    ((w.toInt < 0 ∨ 0xFFFFFF < w.toInt) → decodeCell w = .error (.wordOutOfRange w.toInt)) ∧
      ((0 ≤ w.toInt ∧ w.toInt ≤ 0xFFFFFF) →
        decodeCell w = decode (BitVec.ofNat 24 w.toInt.toNat))

/-- R73, whole: the encode formula of an extended mnemonic. -/
def Obligations.ExtendedEncodeIsCodeShiftedOrMaskedOperand : Prop :=
  ∀ (m : Mnemonic) (x : HostInt), 0xF ≤ m.code →
    0xF0 ≤ m.code ∧ m.code ≤ 0xF2 ∧ (m.encode x).toNat = m.code * 2 ^ 16 + x.toNat % 2 ^ 16 ∧
      slice (m.encode x).toNat 23 20 = 0xF ∧ slice (m.encode x).toNat 19 16 = m.code - 0xF0

/-- R72: the encode formula of a primary mnemonic, which the spec derives, and no word for an unknown mnemonic.  That a spelling
in other letter case, and one for raw data, is unknown is the model's choice (logs 18, 19). -/
def Obligations.PrimaryEncodeIsCodeShiftedOrMaskedOperand : Prop :=
  (∀ (m : Mnemonic) (x : HostInt), m.code < 0xF →
      (m.encode x).toNat = m.code * 2 ^ 20 + x.toNat % 2 ^ 20 ∧ slice (m.encode x).toNat 23 20 = m.code) ∧
    (∀ (name : String) (x : HostInt), name ≠ "HALT" → (∀ m : Mnemonic, m.spelling ≠ name) →
      encodeSpelling name x = none)

/-- R71, whole: one namespace of codes, a primary mnemonic at its opcode, an extended one at 0xF0 plus its sub-opcode. -/
def Obligations.ReverseLookupKeepsOneNamespace : Prop :=
  (∀ (op : Nat) (m : Mnemonic), primaryEntry op = some m ↔ m.code = op ∧ op ≤ 0xC) ∧
    (∀ (sub : Nat) (m : Mnemonic), extendedEntry sub = some m ↔ m.code = 0xF0 + sub) ∧
    (∀ m n : Mnemonic, m.code = n.code → m = n)

/-! Memory -/

/-- A store is what every later read and fetch of its cell finds, and no other cell and nothing else of the state changes (R43
to R45, R51, R53). -/
def Obligations.StoredWordIsReadAndFetchedBack : Prop :=
  ∀ (s t : State) (a : Int) (v : HostInt), memWrite s a v = .ok t →
    memRead t a = .ok v ∧ fetch t a.toNat = some v ∧ (∀ b, b ≠ a → memRead t b = memRead s b) ∧
      (∀ b, b ≠ a.toNat → fetch t b = fetch s b) ∧ t = { s with mem := t.mem }

/-- A word stored over the very next instruction is the word the next step fetches (R53, R174; decision D22). -/
def Obligations.StoreOverNextInstructionIsFetchedNext : Prop :=
  ∀ (s : State) (w x : HostInt), Dispatches s w (.stv (s.ip + 1)) → s.acc = some x →
    ∃ t, step s = .next t ∧ t.ip = s.ip + 1 ∧ fetch t t.ip = some x

/-- No step makes a cell undefined, or the accumulator unwritten, and no step of a machine whose accumulator is written faults
for want of a value in it (R22, R42). -/
def Obligations.DefinedCellsStayDefined : Prop :=
  (∀ (silent atomic : Bool) (s t : State), stepWith silent atomic s = .next t →
      (∀ a, Memory.read s.mem a ≠ none → Memory.read t.mem a ≠ none) ∧ (s.acc ≠ none → t.acc ≠ none)) ∧
    ∀ (silent atomic : Bool) (s : State), s.fault = none → s.acc ≠ none →
      stepWith silent atomic s ≠ .fault .accUnwritten

/-! Loads and stores -/

/-- R110: LDC's effect in every state (it reads no accumulator and cannot fault), the values it can load, and its encoding, the
zero word 0x000000 being LDC 0.  The opcode 0x0 of the encoding is the spec's decision D1, unsafe for a claim about a given
word (log 8). -/
def Obligations.LdcLoadsItsOperand : Prop :=
  (∀ (s : State) (v : Nat), v < 2 ^ 20 →
      ∃ x : HostInt, x.toInt = v ∧ exec (.ldc v) s = .next { s with acc := some x } ∧
        decode (BitVec.ofNat 24 v) = .ok (.ldc v)) ∧
    (∀ (s : State) (v : Nat), ∃ x : HostInt, 0 ≤ x.toInt ∧ x.toInt ≤ 0xFFFFF ∧
      exec (.ldc v) s = .next { s with acc := some x })

/-- R111: LDV loads the cell's word whole; on an undefined cell it faults (decision D8). -/
def Obligations.LdvLoadsTheCell : Prop :=
  ∀ (s : State) (v : Nat), v < 2 ^ 20 →
    (∀ m, Memory.read s.mem v = some m → exec (.ldv v) s = .next { s with acc := some m }) ∧
      (Memory.read s.mem v = none → exec (.ldv v) s = .fault (.undefinedDataRead v))

/-- R112: STV stores the accumulator unmasked into its cell, defining it; an unwritten accumulator faults (D6, D10). -/
def Obligations.StvStoresTheAccumulator : Prop :=
  ∀ (s : State) (v : Nat), v < 2 ^ 20 →
    (∀ x, s.acc = some x → ∃ t, exec (.stv v) s = .next t ∧ t = { s with mem := t.mem } ∧
      Memory.read t.mem v = some x ∧ ∀ b, b ≠ v → Memory.read t.mem b = Memory.read s.mem b) ∧
      (s.acc = none → exec (.stv v) s = .fault .accUnwritten)

/-- R113: LDIV loads the cell its pointer names, the pointer used whole, and its faults in the order given (D8, D9). -/
def Obligations.LdivLoadsThroughThePointer : Prop :=
  ∀ (s : State) (v : Nat), v < 2 ^ 20 →
    (Memory.read s.mem v = none → exec (.ldiv v) s = .fault (.undefinedDataRead v)) ∧
      ∀ p, Memory.read s.mem v = some p →
        ((p.toInt < 0 ∨ 0xFFFFF < p.toInt) → exec (.ldiv v) s = .fault (.dataAddressOutOfRange p.toInt)) ∧
          ∀ a : Nat, p.toInt = a → a ≤ 0xFFFFF →
            (Memory.read s.mem a = none → exec (.ldiv v) s = .fault (.undefinedDataRead a)) ∧
              ∀ m, Memory.read s.mem a = some m → exec (.ldiv v) s = .next { s with acc := some m }

/-- R114: STIV stores the accumulator into the cell its pointer names, and its faults in the order given (D6, D9, D10). -/
def Obligations.StivStoresThroughThePointer : Prop :=
  ∀ (s : State) (v : Nat), v < 2 ^ 20 → operandFaults (.stiv v) v s ∧
    ∀ p x, Memory.read s.mem v = some p → s.acc = some x →
      ((p.toInt < 0 ∨ 0xFFFFF < p.toInt) → exec (.stiv v) s = .fault (.dataAddressOutOfRange p.toInt)) ∧
        ∀ a : Nat, p.toInt = a → a ≤ 0xFFFFF →
          ∃ t, exec (.stiv v) s = .next t ∧ t = { s with mem := t.mem } ∧ Memory.read t.mem a = some x ∧
            ∀ b, b ≠ a → Memory.read t.mem b = Memory.read s.mem b

/-! Arithmetic and logic -/

/-- R120: ADD's result is the exact integer sum; its faults in the order given, the last where the sum leaves the host range
(D5, D6, D8). -/
def Obligations.AddIsTheExactSumOrFaults : Prop :=
  ∀ (s : State) (v : Nat), v < 2 ^ 20 → operandFaults (.add v) v s ∧
    ∀ m x, Memory.read s.mem v = some m → s.acc = some x →
      ((-2 ^ 31 ≤ x.toInt + m.toInt ∧ x.toInt + m.toInt ≤ 2 ^ 31 - 1) →
        ∃ r : HostInt, r.toInt = x.toInt + m.toInt ∧ exec (.add v) s = .next { s with acc := some r }) ∧
        ((x.toInt + m.toInt < -2 ^ 31 ∨ 2 ^ 31 - 1 < x.toInt + m.toInt) →
          exec (.add v) s = .fault (.hostRangeExceeded (x.toInt + m.toInt)))

/-- R121 to R123: AND, OR and XOR act on the 32-bit patterns (decision D4); their faults in the order given (D6, D8). -/
def Obligations.LogicActsOnPatterns : Prop :=
  ∀ (s : State) (v : Nat), v < 2 ^ 20 →
    (operandFaults (.and v) v s ∧ operandFaults (.or v) v s ∧ operandFaults (.xor v) v s) ∧
      ∀ m x, Memory.read s.mem v = some m → s.acc = some x →
        (∃ r : HostInt, r.toNat = x.toNat &&& m.toNat ∧ exec (.and v) s = .next { s with acc := some r }) ∧
          (∃ r : HostInt, r.toNat = x.toNat ||| m.toNat ∧ exec (.or v) s = .next { s with acc := some r }) ∧
          ∃ r : HostInt, r.toNat = x.toNat ^^^ m.toNat ∧ exec (.xor v) s = .next { s with acc := some r }

/-- R124: EQL gives -1 on equal integer values and 0 otherwise, and the sentinel takes a following JMN; its faults in the order
given (D4, D6, D8). -/
def Obligations.EqlGivesTheSentinelThatJmnTakes : Prop :=
  ∀ (s : State) (v : Nat), v < 2 ^ 20 → operandFaults (.eql v) v s ∧
    ∀ m x, Memory.read s.mem v = some m → s.acc = some x →
      ∃ r : HostInt, exec (.eql v) s = .next { s with acc := some r } ∧
        r.toInt = (if x.toInt = m.toInt then -1 else 0) ∧
        ∀ u, u < 2 ^ 20 → exec (.jmn u) { s with acc := some r } =
          .next { s with acc := some r, ip := if x.toInt = m.toInt then u else s.ip }

/-- R125: NOT gives -x - 1, for every value of the operand it ignores, and twice is the identity; an unwritten accumulator
faults (D4, D6, D25). -/
def Obligations.NotIsTheComplement : Prop :=
  ∀ (s : State) (v : Nat),
    (∀ x, s.acc = some x → ∃ r : HostInt, r.toInt = -x.toInt - 1 ∧
      exec (.not v) s = .next { s with acc := some r } ∧
      ∀ u, exec (.not u) { s with acc := some r } = .next s) ∧
      (s.acc = none → exec (.not v) s = .fault .accUnwritten)

/-- R126: RAR's result bits [22:0] are bits [23:1] of the 32-bit pattern and bit 23 is bit 24 OR bit 0, for every value of the
operand it ignores; an unwritten accumulator faults (D4, D6, D25; C4 decides for the formula). -/
def Obligations.RarIsTheFormulaWithItsLeak : Prop :=
  ∀ (s : State) (v : Nat),
    (∀ x, s.acc = some x → ∃ r : HostInt, exec (.rar v) s = .next { s with acc := some r } ∧
      r.toNat = slice x.toNat 23 1 + (if x.getLsbD 24 || x.getLsbD 0 then 2 ^ 23 else 0)) ∧
      (s.acc = none → exec (.rar v) s = .fault .accUnwritten)

/-- Twenty-four RARs of a value in `Word24` give it back (R126). -/
def Obligations.TwentyFourRotationsGiveTheWordBack : Prop :=
  ∀ x : HostInt, x.toNat < 2 ^ 24 → hostRar^[24] x = x

/-! Control transfer and output -/

/-- R130: JMP's effect in every state and its encoding; a target without a defined word halts the next step, not this one; a
jump to itself repeats until the ceiling halts the machine.  The ceiling's comparison and reason are R91 and decision D14, its
value the parameter of log 3, the halt on a wordless target R92 and D15, and the opcode 0x8 decision D1 (log 8). -/
def Obligations.JmpGoesToItsTarget : Prop :=
  (∀ (s : State) (v : Nat), v < 2 ^ 20 →
      exec (.jmp v) s = .next { s with ip := v } ∧ decode (BitVec.ofNat 24 (0x800000 + v)) = .ok (.jmp v)) ∧
    (∀ (s : State) (w : HostInt) (v : Nat), Dispatches s w (.jmp v) →
      ∃ t, step s = .next t ∧ t.ip = v ∧ t.running = s.running ∧ t.haltReason = s.haltReason ∧
        fetch t t.ip = fetch s v ∧
        (t.stepCount + 1 < t.params.stepCeiling → fetch s v = none →
          ∃ u, step t = .next u ∧ u.running = false ∧ u.haltReason = .undefinedFetch) ∧
        (t.params.stepCeiling ≤ t.stepCount + 1 →
          ∃ u, step t = .next u ∧ u.running = false ∧ u.haltReason = .stepCeiling ∧ u.ip = v))

/-- R131: JMN is taken exactly when the integer value of the accumulator is negative, the not-taken form leaving `ip` past the
instruction; an unwritten accumulator faults (D6). -/
def Obligations.JmnFollowsTheSign : Prop :=
  ∀ (s : State) (v : Nat), v < 2 ^ 20 →
    (∀ x, s.acc = some x → exec (.jmn v) s = .next { s with ip := if x.toInt < 0 then v else s.ip }) ∧
      (s.acc = none → exec (.jmn v) s = .fault .accUnwritten)

/-- R132: HLT's effect in every state, for every value of the operand it ignores; its encoding; the step that runs it, with its
trace record and summary naming `stepCount` and the HLT's own address; and a restart, which fetches the same HLT.  The guard of
finalization and the completion are R103 and decision D38, the order of the deliveries in `out`, a field of the model's own, is
the model's choice (log 4), the ignored operand is D25 and the word 0xF0xxxx decision D1 (log 8). -/
def Obligations.HltHaltsAtItsOwnAddress : Prop :=
  (∀ (s : State) (v : Nat), exec (.hlt v) s =
      .next { s with running := false, haltReason := .haltInstr, ip := s.ip - 1 }) ∧
    (∀ v, v < 2 ^ 16 → decode (BitVec.ofNat 24 (0xF00000 + v)) = .ok (.hlt v)) ∧
    (∀ (silent atomic : Bool) (s : State) (w : HostInt) (v : Nat), Dispatches s w (.hlt v) →
      ∃ t, stepWith silent atomic s = .next t ∧
        t = { s with
              running := false, haltReason := .haltInstr, stepCount := s.stepCount + 1
              finalized := s.finalized || !atomic
              out := s.out ++ (if silent then [] else
                  delivered s (.trace (.of s.ip .hlt v s.acc)))
                ++ (if atomic || s.finalized then [] else
                  delivered s (.log (.of (.summary (s.stepCount + 1) s.ip))) ++ delivered s .completion) } ∧
        ∃ u, start t = .next u ∧ u.ip = s.ip ∧ fetch u u.ip = some w)

/-- R140: OUT sends the cell's word on the log channel and changes nothing else; on an undefined cell it faults (D8, D24). -/
def Obligations.OutSendsTheCellOnTheLog : Prop :=
  ∀ (s : State) (v : Nat), v < 2 ^ 20 →
    (∀ m, Memory.read s.mem v = some m →
      exec (.out v) s = .next { s with out := s.out ++ delivered s (.log (.of (.output m))) }) ∧
      (Memory.read s.mem v = none → exec (.out v) s = .fault (.undefinedDataRead v))

/-! Frames -/

/-- The frame of LDC, LDV, LDIV, ADD, AND, OR, XOR, EQL, NOT and RAR: only the accumulator changes; every cell reads as before,
and so does all else (R21, R151 and the rules of 41 and 42). -/
def Obligations.AccumulatorInstructionsChangeOnlyAcc : Prop :=
  ∀ (i : Instr) (s t : State), writesAcc i = true → exec i s = .next t →
    t = { s with acc := t.acc } ∧ ∀ a, Memory.read t.mem a = Memory.read s.mem a

/-- The frame of STV and STIV: only memory changes, and there only the cell stored to, at the address the meaning computes. -/
def Obligations.StoresChangeOnlyTheirCell : Prop :=
  ∀ (i : Instr) (s t : State) (a : Int), storeAddress i s = some a → exec i s = .next t →
    t = { s with mem := t.mem } ∧ ∀ b : Nat, (b : Int) ≠ a → Memory.read t.mem b = Memory.read s.mem b

/-- The frames of JMP and JMN (only `ip`), HLT (`ip`, `running`, `haltReason`) and OUT (only the log channel): the accumulator
and every cell are as before (R21, R32, R130 to R132, R140). -/
def Obligations.ControlAndOutputLeaveAccAndMemory : Prop :=
  (∀ (v : Nat) (s t : State), exec (.jmp v) s = .next t ∨ exec (.jmn v) s = .next t → t = { s with ip := t.ip }) ∧
    (∀ (v : Nat) (s t : State), exec (.hlt v) s = .next t →
      t = { s with ip := t.ip, running := t.running, haltReason := t.haltReason }) ∧
    (∀ (v : Nat) (s t : State), exec (.out v) s = .next t → t = { s with out := t.out }) ∧
    (∀ (i : Instr) (s t : State), writesAcc i = false → storeAddress i s = none → exec i s = .next t →
      t.acc = s.acc ∧ ∀ a, Memory.read t.mem a = Memory.read s.mem a)

/-! The step -/

/-- When the cell at `ip` decodes to an instruction, the step runs it on the counted state with `ip` advanced, answers its fault
if it faults, and after it changes nothing but the channels and the finalized flag (R90, R92, R93, R94). -/
def Obligations.StepRunsTheDecodedInstruction : Prop :=
  ∀ (s : State) (w : HostInt) (i : Instr), Dispatches s w i →
    i.wellFormed = true ∧
      (∀ u, exec i (actionState s) = .next u → ∃ t, step s = .next t ∧
        t = { u with out := t.out, finalized := u.finalized || (!u.running && !s.input.atomic) }) ∧
      (∀ f, exec i (actionState s) = .fault f → step s = .fault f)

/-- What a dispatched step delivers after the action: the record of R100 unless silent or zero padding (R101, R102, D19, D30,
D33), then finalization if it is not atomic and the machine has halted (R94, R103, D15, D38).  The order of the record, the
summary and the completion, which are on different channels, is the model's reading (DEDUCED, log 4). -/
def Obligations.StepDeliversTraceThenFinalization : Prop :=
  ∀ (silent atomic : Bool) (s u : State) (w : HostInt) (i : Instr), Dispatches s w i →
    exec i (actionState s) = .next u → ∃ t, stepWith silent atomic s = .next t ∧
      t.out = u.out ++ (if silent then [] else traceEvents s.ip w i u) ++
        (if atomic || u.running then [] else finalEvents u)

/-- R24: how each instruction leaves `ip`, the word at `a` fetched and run. -/
def Obligations.EachInstructionLeavesIpAsTheRuleSays : Prop :=
  ∀ (silent atomic : Bool) (s t : State) (w : HostInt) (i : Instr), Dispatches s w i →
    stepWith silent atomic s = .next t →
      t.ip = match i with
        | .jmp v => v
        | .jmn v => if (s.acc.map fun x => decide (x.toInt < 0)) = some true then v else s.ip + 1
        | .hlt _ => s.ip
        | .ldc _ | .ldv _ | .stv _ | .add _ | .and _ | .or _ | .xor _ | .eql _ => s.ip + 1
        | .ldiv _ | .stiv _ | .out _ | .not _ | .rar _ => s.ip + 1

/-- Every step that has a next state adds one to the step counter, whether or not it executes an instruction, and sets neither
the fault, the schedule, the parameters, the registered channels nor the caller's flags (R26, R90, R108). -/
def Obligations.EveryStepCountsOne : Prop :=
  ∀ (silent atomic : Bool) (s t : State), stepWith silent atomic s = .next t →
    t.stepCount = s.stepCount + 1 ∧ t.fault = none ∧ s.fault = none ∧ t.scheduled = s.scheduled ∧
      t.params = s.params ∧ t.registered = s.registered ∧ t.input = s.input

/-- R91: at the ceiling a step executes nothing and halts with `StepCeiling` (D14, D15).  What finalization delivers, and its
guard, are R103 and D38; the order of deliveries on different channels is the model's reading (DEDUCED, log 4). -/
def Obligations.CeilingTripHaltsWithoutExecuting : Prop :=
  ∀ (silent atomic : Bool) (s : State), s.fault = none → s.params.stepCeiling ≤ s.stepCount + 1 →
    stepWith silent atomic s = .next { s with
      stepCount := s.stepCount + 1, running := false, haltReason := .stepCeiling
      finalized := s.finalized || !atomic
      out := s.out ++ delivered s (.log (.of .maxRuntime)) ++
        (if atomic then [] else finalEvents { s with stepCount := s.stepCount + 1 }) }

/-- R92: a fetch that finds no word halts with `UndefinedFetch`, naming the address (D12, D15).  What finalization delivers, and
its guard, are R103 and D38; the order of deliveries on different channels is the model's reading (DEDUCED, log 4). -/
def Obligations.UndefinedFetchHaltsGracefully : Prop :=
  ∀ (silent atomic : Bool) (s : State) (next : Nat), s.fault = none → s.stepCount + 1 < s.params.stepCeiling →
    (addrSpace ≤ s.ip ∨ Memory.read s.mem s.ip = none) →
    next = (if s.params.undefFetchAdvancesIp then s.ip + 1 else s.ip) →
    stepWith silent atomic s = .next { s with
      stepCount := s.stepCount + 1, ip := next, running := false, haltReason := .undefinedFetch
      finalized := s.finalized || !atomic
      out := s.out ++ delivered s (.log (.of (.undefinedFetch s.ip))) ++
        (if atomic then [] else finalEvents { s with stepCount := s.stepCount + 1, ip := next }) }

/-- R93: a word that spells no instruction halts with its code, dispatches nothing, is not traced and does not finalize, and
leaves `ip` one past it (D15, D30, D34). -/
def Obligations.DecodeFailureHaltsWithItsCode : Prop :=
  ∀ (silent atomic : Bool) (s : State) (w : HostInt) (code : Nat), s.fault = none →
    s.stepCount + 1 < s.params.stepCeiling → fetch s s.ip = some w →
    decodeCell w = .error (.invalidCommand code) →
    stepWith silent atomic s = .next { s with
      stepCount := s.stepCount + 1, ip := s.ip + 1, running := false, haltReason := .invalidCommand code
      out := s.out ++ delivered s (.log (.of (.invalidCommand code))) }

/-- R158: a step of a state without a fault raises one only below the ceiling, on a defined word, which is outside `Word24`, or
whose instruction raises it (D32). -/
def Obligations.FaultsComeAfterTheCeilingAndTheFetch : Prop :=
  ∀ (silent atomic : Bool) (s : State) (f : Fault), s.fault = none →
    (stepWith silent atomic s = .fault f ↔
      s.stepCount + 1 < s.params.stepCeiling ∧ ∃ w, fetch s s.ip = some w ∧
        (((w.toInt < 0 ∨ 0xFFFFFF < w.toInt) ∧ f = .wordOutOfRange w.toInt) ∨
          ∃ i, decodeCell w = .ok i ∧ exec i (actionState s) = .fault f))

/-- R157: which instruction raises which fault, and why (D5, D6, D8, D9, D11). -/
def Obligations.EachFaultHasItsCauseAndInstructions : Prop :=
  ∀ (i : Instr) (s : State) (f : Fault), exec i s = .fault f →
    match f with
    | .accUnwritten => readsAcc i = true ∧ s.acc = none
    | .undefinedDataRead a => readsOperandCell i = true ∧ a < addrSpace ∧ Memory.read s.mem a = none
    | .dataAddressOutOfRange p => usesPointer i = true ∧ (p < 0 ∨ 0xFFFFF < p)
    | .wordOutOfRange _ => False
    | .hostRangeExceeded r => (∃ v, i = .add v) ∧ (r < -2 ^ 31 ∨ 2 ^ 31 - 1 < r)

/-- Every instruction of the table has a meaning: no step and no action is refused (R69, R90). -/
def Obligations.NoInstructionIsRefused : Prop :=
  (∀ (i : Instr) (s : State) (r : Refusal), exec i s ≠ .refused r) ∧
    ∀ (silent atomic : Bool) (s : State) (r : Refusal), stepWith silent atomic s ≠ .refused r

/-- No step starts the machine: only a start of execution sets `running` (R25, R99). -/
def Obligations.OnlyAStartSetsRunning : Prop :=
  (∀ (silent atomic : Bool) (s t : State), stepWith silent atomic s = .next t → t.running = true → s.running = true) ∧
    (∀ op s, op.starts = false → (afterOp op s).running = true → s.running = true)

/-- R150: a step takes a running machine to halted on exactly four events: the ceiling, a fetch without a defined word, a decode
failure, an executed halt instruction.  Each leaves its reason (R28, R152, decision D18; the code of a decode failure is D34);
the comparison with the ceiling is R91 and D14; cancellation halts too, as `Cancelled` (R98, D38). -/
def Obligations.RunningMachineHaltsOnExactlyFourEvents : Prop :=
  (∀ (silent atomic : Bool) (s t : State), s.running = true → stepWith silent atomic s = .next t →
      (t.running = false ↔
        s.params.stepCeiling ≤ s.stepCount + 1 ∨ fetch s s.ip = none ∨
          (∃ w code, fetch s s.ip = some w ∧ decodeCell w = .error (.invalidCommand code)) ∨
          ∃ w v, fetch s s.ip = some w ∧ decodeCell w = .ok (.hlt v)) ∧
      (s.params.stepCeiling ≤ s.stepCount + 1 → t.haltReason = .stepCeiling) ∧
      (s.stepCount + 1 < s.params.stepCeiling →
        (fetch s s.ip = none → t.haltReason = .undefinedFetch) ∧
          ∀ w, fetch s s.ip = some w →
            (∀ code, decodeCell w = .error (.invalidCommand code) → t.haltReason = .invalidCommand code) ∧
              ∀ v, decodeCell w = .ok (.hlt v) → t.haltReason = .haltInstr)) ∧
    (∀ s t, s.running = true → cancel s = .next t → t.running = false ∧ t.haltReason = .cancelled)

/-- What the channels have delivered is never taken back: every step only adds to it (R100, R104, R106). -/
def Obligations.ChannelsOnlyGrow : Prop :=
  ∀ (silent atomic : Bool) (s t : State), stepWith silent atomic s = .next t → ∃ es, t.out = s.out ++ es

/-- R101: a silent step emits no trace record; the synchronous run is silent; the cooperative run is not: its tick takes a step
that is not silent, and stops the schedule once halted (R97, decision D27). -/
def Obligations.SilentStepsAreNotTraced : Prop :=
  (∀ (atomic : Bool) (s t : State), stepWith true atomic s = .next t → traces t = traces s) ∧
    (∀ s t, run s = .next t → traces t = traces s) ∧
    (∀ s t, s.fault = none → s.scheduled = true → s.running = true → stepWith false false s = .next t →
      tick s = .next (if t.running then t else { t with scheduled := false }))

/-! Isolation -/

/-- What an action does to accumulator, `ip` and memory, and whether it faults, depends on those alone: no instruction reads
the run flag, the counter, the halt reason, the other flags, the parameters or the channels (R33). -/
def Obligations.ActionsSeeOnlyTheProgramState : Prop :=
  ∀ (i : Instr) (s t : State), sameProgramState s t → outcomesAgree sameProgramState (exec i s) (exec i t)

/-- The caller's two flags change only what the channels deliver and whether the run is finalized (R90, R101, D15). -/
def Obligations.StepFlagsChangeOnlyChannelsAndFinalization : Prop :=
  ∀ (silent atomic silent' atomic' : Bool) (s : State),
    outcomesAgree (fun t u => u = { t with out := u.out, finalized := u.finalized })
      (stepWith silent atomic s) (stepWith silent' atomic' s)

/-- Which channels the owner registered changes only what they deliver (R109, D36). -/
def Obligations.UnregisteredChannelsChangeNoState : Prop :=
  ∀ (silent atomic : Bool) (s : State) (ch : Channels),
    outcomesAgree (fun t u => u = { t with registered := ch, out := u.out })
      (stepWith silent atomic s) (stepWith silent atomic { s with registered := ch })

/-- R54: machines side by side share nothing.  An operation on the `n`-th leaves every other as it was; and what it does there,
and what it delivers, depends on what the host reads of that machine, its parameters and its registered channels alone: not on
the other machines, on what its channels delivered before, or on the flags left for `step` (the fields of logs 3 to 5 and the
list of machines of log 17 are the model's). -/
def Obligations.SeparateMachinesShareNothing : Prop :=
  ∀ (n : Nat) (op : HostOp) (machines others : List State),
    (∀ k, k ≠ n → (performAt n op machines)[k]? = machines[k]?) ∧
      ∀ s t, machines[n]? = some s → others[n]? = some t → hostView t = hostView s → t.params = s.params →
        t.registered = s.registered →
        ∃ s' t' es, (performAt n op machines)[n]? = some s' ∧ (performAt n op others)[n]? = some t' ∧
          hostView t' = hostView s' ∧ s'.out = s.out ++ es ∧ t'.out = t.out ++ es

/-! The host interface -/

/-- R35 and R170's values, in `State.reset`; the accumulator holds 0 there, where the source gives no value, and the image is
empty, which are the model's choices (logs 1 and 2). -/
def Obligations.ResetLeavesTheTabledValues : Prop :=
  State.reset.acc = some 0 ∧ State.reset.running = false ∧ State.reset.stepCount = 0 ∧
    State.reset.haltReason = .none ∧ State.reset.finalized = false ∧ State.reset.scheduled = false ∧
    State.reset.fault = none ∧ ∀ a, Memory.read State.reset.mem a = none

/-- R170 and R171: `reset` creates the tabled state with the image in memory and `ip` at the start address, and is refused
exactly where a precondition fails (D7, D17, D23).  The accumulator is as the machine's parameter says: `none`, unwritten, as D6
has it, or a value it starts from (the parameter is the model's, log 1). -/
def Obligations.ResetCreatesTheImageStateOrRefuses : Prop :=
  ∀ (p : Params) (ch : Channels) (image : List Int),
    (∃ r, resetWith p ch image none = .refused r) ∧
      ∀ a : Nat,
        ((a < 2 ^ 20 ∧ image.length ≤ 2 ^ 20 ∧ ∀ w ∈ image, -2 ^ 31 ≤ w ∧ w ≤ 2 ^ 31 - 1) →
          ∃ t, resetWith p ch image (some a) = .next t ∧ t.acc = p.accAtReset ∧ t.ip = a ∧ t.running = false ∧
            t.stepCount = 0 ∧ t.haltReason = .none ∧ t.finalized = false ∧ t.scheduled = false ∧ t.fault = none ∧
            ∀ x, (Memory.read t.mem x).map BitVec.toInt = image[x]?) ∧
          (¬(a < 2 ^ 20 ∧ image.length ≤ 2 ^ 20 ∧ ∀ w ∈ image, -2 ^ 31 ≤ w ∧ w ≤ 2 ^ 31 - 1) →
            ∃ r, resetWith p ch image (some a) = .refused r)

/-- R95: a start sets the run flag and clears the halt reason and the finalized flag, and nothing else; a state with a fault
admits none (D17). -/
def Obligations.StartSetsRunningAndNothingElse : Prop :=
  ∀ s : State,
    (s.fault = none → start s = .next { s with running := true, haltReason := .none, finalized := false }) ∧
      (s.fault ≠ none → ∃ f, start s = .fault f)

/-- R97: a cooperative start schedules the tick; a tick does nothing unless scheduled, takes one traced, non-atomic step while
running, and stops the schedule once halted (D27). -/
def Obligations.TickStepsOnlyWhileScheduledAndRunning : Prop :=
  ∀ s : State, s.fault = none →
    startCooperative s = .next { s with running := true, haltReason := .none, finalized := false, scheduled := true } ∧
      (s.scheduled = false → tick s = .next s) ∧
      (s.scheduled = true → s.running = false → tick s = .next { s with scheduled := false }) ∧
      (s.scheduled = true → s.running = true →
        (∀ t, stepWith false false s = .next t →
          tick s = .next { t with scheduled := if t.running then t.scheduled else false }) ∧
          (∀ f, stepWith false false s = .fault f → tick s = .fault f))

/-- R98: cancellation stops the schedule, halts a running machine as `Cancelled`, finalizes once, and is idempotent (D38).  What
finalization delivers, and its guard, are R103; that the summary comes before the completion, on another channel, is the model's
reading (DEDUCED, log 4). -/
def Obligations.CancelFinalizesOnceAndIsIdempotent : Prop :=
  ∀ s : State, s.fault = none → ∃ t, cancel s = .next t ∧
    t = { s with
          scheduled := false, running := false, finalized := true
          haltReason := if s.running then .cancelled else s.haltReason
          out := s.out ++ finalEvents s } ∧
    cancel t = .next t

/-- R104: between starts the completion channel is invoked at most once, and not at all once the run is finalized. -/
def Obligations.CompletionIsNotifiedAtMostOncePerRun : Prop :=
  ∀ (ops : List HostOp) (s : State), (∀ op ∈ ops, op.starts = false) →
    completions (ops.foldl (fun t op => afterOp op t) s) ≤ completions s + 1 ∧
      (s.finalized = true → completions (ops.foldl (fun t op => afterOp op t) s) = completions s)

/-- R96: a run ends, halted or with a fault, within `max(1, STEP_CEILING - k)` steps of its counter `k`; more steps allowed
would change nothing. -/
def Obligations.RunEndsWithinTheStepBudget : Prop :=
  ∀ s : State, s.fault = none →
    ((∃ t, run s = .next t ∧ t.running = false ∧
        t.stepCount ≤ s.stepCount + max 1 (s.params.stepCeiling - s.stepCount)) ∨ ∃ f, run s = .fault f) ∧
      ∀ n u, max 1 (s.params.stepCeiling - s.stepCount) ≤ n → start s = .next u → runLoop n u = run s

/-- R31 and R156: a state with a fault admits no step and no other operation, and keeps its fault; a step that faults leaves
the machine as it was asked, with that fault recorded (D31). -/
def Obligations.FaultIsRecordedAndSticky : Prop :=
  (∀ (s : State) (f : Fault) (op : HostOp), s.fault = some f → perform op s = .fault f ∧ afterOp op s = s) ∧
    ∀ (silent atomic : Bool) (s : State) (f : Fault), s.fault = none → stepWith silent atomic s = .fault f →
      afterOp (.step silent atomic) s = { s with fault := some f }

/-! Invariants -/

/-- Every step keeps the invariant, from every state that meets it, whether or not a run reaches it. -/
def Obligations.EveryStepKeepsTheInvariant : Prop :=
  ∀ s t : State, s.Inv → step s = .next t → t.Inv

/-- The reset state meets the invariant. -/
def Obligations.ResetMeetsTheInvariant : Prop := State.reset.Inv

/-- Every host operation keeps the invariant, the fault it may record included, from every state that meets it; and every machine
an admitted `reset` creates meets it. -/
def Obligations.EveryHostOperationKeepsTheInvariant : Prop :=
  (∀ (op : HostOp) (s : State), s.Inv → (afterOp op s).Inv) ∧
    ∀ (p : Params) (ch : Channels) (image : List Int) (start : Option Nat) (t : State),
      resetWith p ch image start = .next t → t.Inv

/-- Every machine a host can bring about, from any image and start address by any operations, recorded faults included, meets
the invariant. -/
def Obligations.EveryReachableMachineMeetsTheInvariant : Prop := ∀ s : State, Reachable s → s.Inv
end

