-- ==== Sys2Proof/Laws/PerInstr.lean ====
section
/-! SUPPORT. A statement about every instruction as syntax: it is what its table entry and its operand make, and its code is
that entry's code (30_encoding.md R65, R66, R71). -/

namespace Sys2Proof

/-- The entry a numeric code of the reverse lookup names: the primary catalog below 0xF, the extended catalog from 0xF0 (R71). -/
def entryOfCode (c : Nat) : Option Mnemonic := if c < 0xF then primaryEntry c else extendedEntry (c - 0xF0)

/-- The operand's range is the one its format gives it. -/
def operandBits (m : Mnemonic) : Nat := if m.code < 0xF then 20 else 16

/-- An instruction is made of its entry and its operand; its entry stands in the catalog under its code; and it is well-formed
exactly when its operand fits the field of its format. -/
def Laws.Catalogue.Statement (i : Instr) : Prop :=
  i.mnemonic.toInstr i.operand = i ∧ entryOfCode i.mnemonic.code = some i.mnemonic ∧
    i.wellFormed = decide (i.operand < 2 ^ operandBits i.mnemonic)

/-- A mnemonic's code names its catalog entry (R71). -/
theorem entryOfCode_code (m : Mnemonic) : entryOfCode m.code = some m := by cases m <;> decide

theorem Laws.Catalogue.ldc (v : Nat) : Laws.Catalogue.Statement (.ldc v) := ⟨rfl, entryOfCode_code _, rfl⟩
theorem Laws.Catalogue.ldv (v : Nat) : Laws.Catalogue.Statement (.ldv v) := ⟨rfl, entryOfCode_code _, rfl⟩
theorem Laws.Catalogue.stv (v : Nat) : Laws.Catalogue.Statement (.stv v) := ⟨rfl, entryOfCode_code _, rfl⟩
theorem Laws.Catalogue.add (v : Nat) : Laws.Catalogue.Statement (.add v) := ⟨rfl, entryOfCode_code _, rfl⟩
theorem Laws.Catalogue.and (v : Nat) : Laws.Catalogue.Statement (.and v) := ⟨rfl, entryOfCode_code _, rfl⟩
theorem Laws.Catalogue.or (v : Nat) : Laws.Catalogue.Statement (.or v) := ⟨rfl, entryOfCode_code _, rfl⟩
theorem Laws.Catalogue.xor (v : Nat) : Laws.Catalogue.Statement (.xor v) := ⟨rfl, entryOfCode_code _, rfl⟩
theorem Laws.Catalogue.eql (v : Nat) : Laws.Catalogue.Statement (.eql v) := ⟨rfl, entryOfCode_code _, rfl⟩
theorem Laws.Catalogue.jmp (v : Nat) : Laws.Catalogue.Statement (.jmp v) := ⟨rfl, entryOfCode_code _, rfl⟩
theorem Laws.Catalogue.jmn (v : Nat) : Laws.Catalogue.Statement (.jmn v) := ⟨rfl, entryOfCode_code _, rfl⟩
theorem Laws.Catalogue.ldiv (v : Nat) : Laws.Catalogue.Statement (.ldiv v) := ⟨rfl, entryOfCode_code _, rfl⟩
theorem Laws.Catalogue.stiv (v : Nat) : Laws.Catalogue.Statement (.stiv v) := ⟨rfl, entryOfCode_code _, rfl⟩
theorem Laws.Catalogue.out (v : Nat) : Laws.Catalogue.Statement (.out v) := ⟨rfl, entryOfCode_code _, rfl⟩
theorem Laws.Catalogue.hlt (v : Nat) : Laws.Catalogue.Statement (.hlt v) := ⟨rfl, entryOfCode_code _, rfl⟩
theorem Laws.Catalogue.not (v : Nat) : Laws.Catalogue.Statement (.not v) := ⟨rfl, entryOfCode_code _, rfl⟩
theorem Laws.Catalogue.rar (v : Nat) : Laws.Catalogue.Statement (.rar v) := ⟨rfl, entryOfCode_code _, rfl⟩

end Sys2Proof
end

