-- ==== Sys2Proof/Laws/Decode.lean ====
section
/-! SUPPORT. Small facts of the decoder: its fields as quotients and remainders, what a decoded word is, the range of a cell. -/

namespace Sys2Proof

theorem inWord24_iff {w : HostInt} : inWord24 w = true ↔ 0 ≤ w.toInt ∧ w.toInt ≤ 0xFFFFFF := by simp [inWord24]

@[simp] theorem toInstr_mnemonic (m : Mnemonic) (v : Nat) : (m.toInstr v).mnemonic = m := by cases m <;> rfl

@[simp] theorem toInstr_operand (m : Mnemonic) (v : Nat) : (m.toInstr v).operand = v := by cases m <;> rfl

theorem slice_op (w : Word24) : slice w.toNat 23 20 = w.toNat / 2 ^ 20 := by
  have := w.isLt; simp only [slice]; omega

theorem slice_sub (w : Word24) : slice w.toNat 19 16 = w.toNat / 2 ^ 16 % 16 := by simp only [slice]; omega

theorem slice_primary (w : Word24) : slice w.toNat 19 0 = w.toNat % 2 ^ 20 := by simp only [slice]; omega

theorem slice_extended (w : Word24) : slice w.toNat 15 0 = w.toNat % 2 ^ 16 := by simp only [slice]; omega

/-- A decoded word is a bound primary opcode with its 20-bit operand, or a bound sub-opcode with its 16-bit one (R63). -/
theorem decode_ok {w : Word24} {i : Instr} (h : decode w = .ok i) :
    (∃ m, w.toNat / 2 ^ 20 ≠ 0xF ∧ primaryEntry (w.toNat / 2 ^ 20) = some m ∧ i = m.toInstr (w.toNat % 2 ^ 20)) ∨
      ∃ m, w.toNat / 2 ^ 20 = 0xF ∧ extendedEntry (w.toNat / 2 ^ 16 % 16) = some m ∧
        i = m.toInstr (w.toNat % 2 ^ 16) := by
  unfold decode at h
  simp only [slice_op, slice_sub, slice_primary, slice_extended] at h
  split at h
  · split at h
    · cases h; exact .inr ⟨_, ‹_›, ‹_›, rfl⟩
    · cases h
  · split at h
    · cases h; exact .inl ⟨_, ‹_›, ‹_›, rfl⟩
    · cases h

/-- The decoder reads cell by cell: an instruction comes from a cell in `Word24` (R68). -/
theorem decodeCell_ok {w : HostInt} {i : Instr} (h : decodeCell w = .ok i) :
    inWord24 w = true ∧ decode (w.setWidth 24) = .ok i := by
  unfold decodeCell at h
  split at h
  · exact ⟨‹_›, h⟩
  · cases h

/-- A decode failure comes from a cell in `Word24` (R67, R68). -/
theorem decodeCell_invalidCommand {w : HostInt} {c : Nat} (h : decodeCell w = .error (.invalidCommand c)) :
    inWord24 w = true ∧ decode (w.setWidth 24) = .error (.invalidCommand c) := by
  unfold decodeCell at h
  split at h
  · exact ⟨‹_›, h⟩
  · cases h

end Sys2Proof
end

