-- ==== Sys2Proof/Laws/HostArith.lean ====
section
/-! SUPPORT. The host operations are the ones 00_scope.md R8 writes with `u32` (`BitVec.toNat`) and `s32` (`BitVec.toInt`). -/

namespace Sys2Proof.Machine

theorem hostAnd_pattern (x y : HostInt) : (hostAnd x y).toNat = x.toNat &&& y.toNat := BitVec.toNat_and x y

theorem hostOr_pattern (x y : HostInt) : (hostOr x y).toNat = x.toNat ||| y.toNat := BitVec.toNat_or x y

theorem hostXor_pattern (x y : HostInt) : (hostXor x y).toNat = x.toNat ^^^ y.toNat := BitVec.toNat_xor x y

theorem hostNot_toInt (x : HostInt) : (hostNot x).toInt = -x.toInt - 1 := by
  simp only [hostNot, BitVec.toInt_eq_toNat_cond, BitVec.toNat_not]
  have := x.isLt
  split <;> split <;> omega

theorem hostShr_pattern (x : HostInt) (n : Nat) : (hostShr x n).toNat = x.toNat / 2 ^ n := by
  simp [hostShr, BitVec.toNat_ushiftRight, Nat.shiftRight_eq_div_pow]

theorem hostShl_pattern (x : HostInt) (n : Nat) : (hostShl x n).toNat = x.toNat * 2 ^ n % 2 ^ 32 := by
  simp [hostShl, BitVec.toNat_shiftLeft, Nat.shiftLeft_eq]

/-- An exact integer in the host range is the value of the host integer made from it. -/
theorem toInt_ofInt_of_inHostRange {r : Int} (h : inHostRange r = true) : (BitVec.ofInt 32 r).toInt = r := by
  simp only [inHostRange, decide_eq_true_eq] at h
  rw [BitVec.toInt_ofInt]
  simp only [Int.bmod]
  omega

/-- What the addition answers: the exact sum, or the fault that names it (42_alu.md R120). -/
theorem hostAdd_cases (x y : HostInt) :
    (∃ r : HostInt, hostAdd x y = .ok r ∧ r.toInt = x.toInt + y.toInt) ∨
      (inHostRange (x.toInt + y.toInt) = false ∧ hostAdd x y = .error (.hostRangeExceeded (x.toInt + y.toInt))) := by
  unfold hostAdd
  split
  · exact .inl ⟨_, rfl, toInt_ofInt_of_inHostRange ‹_›⟩
  · exact .inr ⟨by simp_all, rfl⟩

/-- The sentinel is negative and zero is not (42_alu.md R124; 43_control.md R131). -/
@[simp] theorem isNegative_hostEql (x y : HostInt) : isNegative (hostEql x y) = decide (x = y) := by
  by_cases h : x = y <;> simp [isNegative, hostEql, h]

/-- RAR's result is a 24-bit value (42_alu.md R127(e)). -/
theorem hostRar_lt (x : HostInt) : (hostRar x).toNat < 2 ^ 24 := by
  have h : (hostRar x).toNat ≤ (0xFFFFFF : HostInt).toNat := by
    rw [hostRar, hostAnd_pattern]; exact Nat.and_le_right
  have : (0xFFFFFF : HostInt).toNat = 0xFFFFFF := rfl
  omega

end Sys2Proof.Machine
end

