-- ==== Sys2Proof/Laws/Memory.lean ====
section
/-! SUPPORT. The laws of memory (20_memory.md R42 to R45, R51): reading after writing, and the canonical form. -/

namespace Sys2Proof.Machine

/-- A read after a write gives the word written, and every other cell reads as before (R44, R51). -/
theorem Memory.read_write (m : Memory) (a b : Nat) (v : HostInt) :
    Memory.read (Memory.write m a v) b = if b = a then some v else Memory.read m b := by
  induction m with
  | nil => simp [Memory.write, Memory.read, eq_comm]
  | cons c m ih =>
    obtain ⟨k, w⟩ := c
    unfold Memory.write
    split
    · simp [Memory.read, eq_comm]
    · split
      · subst_vars
        by_cases h : b = k <;> simp [Memory.read, h, eq_comm]
      · by_cases h : b = a
        · subst h
          have hk : k ≠ b := fun e => by omega
          simp [Memory.read, ih, hk]
        · simp [Memory.read, ih, h]

@[simp] theorem Memory.read_write_same (m : Memory) (a : Nat) (v : HostInt) :
    Memory.read (Memory.write m a v) a = some v := by simp [Memory.read_write]

theorem Memory.read_write_other (m : Memory) {a b : Nat} (v : HostInt) (h : b ≠ a) :
    Memory.read (Memory.write m a v) b = Memory.read m b := by simp [Memory.read_write, h]

/-- A store keeps a memory's addresses rising from above a bound. -/
theorem Memory.wfFrom_write {m : Memory} {lo a : Nat} {v : HostInt} (hm : Memory.wfFrom lo m = true)
    (hlo : lo ≤ a) (ha : a < addrSpace) : Memory.wfFrom lo (Memory.write m a v) = true := by
  induction m generalizing lo with
  | nil => simp [Memory.write, Memory.wfFrom, hlo, ha]
  | cons c m ih =>
    obtain ⟨k, w⟩ := c
    simp only [Memory.wfFrom, Bool.and_eq_true, decide_eq_true_eq] at hm
    unfold Memory.write
    split
    · simp only [Memory.wfFrom, Bool.and_eq_true, decide_eq_true_eq]
      exact ⟨⟨hlo, ha⟩, ⟨by omega, hm.1.2⟩, hm.2⟩
    · split
      · subst_vars
        simp only [Memory.wfFrom, Bool.and_eq_true, decide_eq_true_eq]
        exact ⟨⟨hlo, ha⟩, hm.2⟩
      · simp only [Memory.wfFrom, Bool.and_eq_true, decide_eq_true_eq]
        exact ⟨hm.1, ih hm.2 (by omega)⟩

/-- A store inside the address space keeps the canonical form. -/
theorem Memory.wf_write {m : Memory} {a : Nat} {v : HostInt} (hm : m.wf = true) (ha : a < addrSpace) :
    (Memory.write m a v).wf = true :=
  Memory.wfFrom_write hm (Nat.zero_le a) ha

theorem Memory.read_none_below {m : Memory} {lo a : Nat} (hm : Memory.wfFrom lo m = true) (ha : a < lo) :
    Memory.read m a = none := by
  induction m generalizing lo with
  | nil => rfl
  | cons c m ih =>
    obtain ⟨k, w⟩ := c
    simp only [Memory.wfFrom, Bool.and_eq_true, decide_eq_true_eq] at hm
    have hk : k ≠ a := fun e => by omega
    simpa [Memory.read, hk] using ih hm.2 (by omega)

/-- A defined cell of a well-formed memory is a cell of the machine. -/
theorem Memory.read_some_lt {m : Memory} {lo a : Nat} {v : HostInt} (hm : Memory.wfFrom lo m = true)
    (h : Memory.read m a = some v) : a < addrSpace := by
  induction m generalizing lo with
  | nil => simp [Memory.read] at h
  | cons c m ih =>
    obtain ⟨k, w⟩ := c
    simp only [Memory.wfFrom, Bool.and_eq_true, decide_eq_true_eq] at hm
    by_cases hk : k = a
    · subst hk; exact hm.1.2
    · exact ih hm.2 (by simpa [Memory.read, hk] using h)

/-- Equal memories are equal data: two canonical lists that read alike are the same list. -/
theorem Memory.wf_ext {m n : Memory} {lo : Nat} (hm : Memory.wfFrom lo m = true) (hn : Memory.wfFrom lo n = true)
    (h : ∀ a, Memory.read m a = Memory.read n a) : m = n := by
  induction m generalizing lo n with
  | nil =>
    cases n with
    | nil => rfl
    | cons c n => simpa [Memory.read] using h c.1
  | cons c m ih =>
    obtain ⟨k, w⟩ := c
    cases n with
    | nil => simpa [Memory.read] using h k
    | cons d n =>
      obtain ⟨l, u⟩ := d
      simp only [Memory.wfFrom, Bool.and_eq_true, decide_eq_true_eq] at hm hn
      have hkl : k = l := by
        rcases Nat.lt_trichotomy k l with hlt | heq | hlt
        · have h1 := h k
          have h2 : Memory.read n k = none := Memory.read_none_below hn.2 (by omega)
          have h3 : l ≠ k := fun e => by omega
          simp [Memory.read, h2, h3] at h1
        · exact heq
        · have h1 := h l
          have h2 : Memory.read m l = none := Memory.read_none_below hm.2 (by omega)
          have h3 : k ≠ l := fun e => by omega
          simp [Memory.read, h2, h3] at h1
      subst hkl
      have hwu : w = u := by simpa [Memory.read] using h k
      subst hwu
      have htail : m = n := by
        refine ih hm.2 hn.2 fun a => ?_
        by_cases ha : k = a
        · subst ha
          rw [Memory.read_none_below hm.2 (Nat.lt_succ_self k), Memory.read_none_below hn.2 (Nat.lt_succ_self k)]
        · simpa [Memory.read, ha] using h a
      rw [htail]

/-- The memory of an image that fits is in canonical form (R170, R171). -/
theorem imageMemory_wf (ws : List Int) (base : Nat) (h : base + ws.length ≤ addrSpace) :
    Memory.wfFrom base (imageMemory base ws) = true := by
  induction ws generalizing base with
  | nil => rfl
  | cons w ws ih =>
    simp only [List.length_cons] at h
    simp only [imageMemory, Memory.wfFrom, Bool.and_eq_true, decide_eq_true_eq]
    exact ⟨⟨Nat.le_refl base, by omega⟩, ih (base + 1) (by omega)⟩

theorem State.reset_mem_wf : State.reset.mem.wf = true := rfl

/-- Placing an instruction where the machine fetches keeps the canonical form. -/
theorem placeWord_wf (w : Nat) {s : State} (hm : s.mem.wf = true) (hip : s.ip < addrSpace) :
    (placeWord w s).mem.wf = true :=
  Memory.wf_write hm hip

end Sys2Proof.Machine
end

