-- ==== Sys2Proof/Laws/State.lean ====
section
/-! SUPPORT. What every named update of the state leaves in each field, so that no later proof unfolds a record update. -/

namespace Sys2Proof.Machine

/-- The step ceiling is positive (00_scope.md R5). -/
theorem stepCeiling_pos (p : Params) : 0 < p.stepCeiling := p.ceiling.property

@[simp] theorem setAcc_acc (v : HostInt) (s : State) : (setAcc v s).acc = some v := rfl
@[simp] theorem setAcc_ip (v : HostInt) (s : State) : (setAcc v s).ip = s.ip := rfl
@[simp] theorem setAcc_mem (v : HostInt) (s : State) : (setAcc v s).mem = s.mem := rfl
@[simp] theorem setAcc_running (v : HostInt) (s : State) : (setAcc v s).running = s.running := rfl
@[simp] theorem setAcc_stepCount (v : HostInt) (s : State) : (setAcc v s).stepCount = s.stepCount := rfl
@[simp] theorem setAcc_haltReason (v : HostInt) (s : State) : (setAcc v s).haltReason = s.haltReason := rfl
@[simp] theorem setAcc_finalized (v : HostInt) (s : State) : (setAcc v s).finalized = s.finalized := rfl
@[simp] theorem setAcc_scheduled (v : HostInt) (s : State) : (setAcc v s).scheduled = s.scheduled := rfl
@[simp] theorem setAcc_fault (v : HostInt) (s : State) : (setAcc v s).fault = s.fault := rfl
@[simp] theorem setAcc_params (v : HostInt) (s : State) : (setAcc v s).params = s.params := rfl
@[simp] theorem setAcc_registered (v : HostInt) (s : State) : (setAcc v s).registered = s.registered := rfl
@[simp] theorem setAcc_out (v : HostInt) (s : State) : (setAcc v s).out = s.out := rfl
@[simp] theorem setAcc_input (v : HostInt) (s : State) : (setAcc v s).input = s.input := rfl

@[simp] theorem setIp_acc (v : Nat) (s : State) : (setIp v s).acc = s.acc := rfl
@[simp] theorem setIp_ip (v : Nat) (s : State) : (setIp v s).ip = v := rfl
@[simp] theorem setIp_mem (v : Nat) (s : State) : (setIp v s).mem = s.mem := rfl
@[simp] theorem setIp_running (v : Nat) (s : State) : (setIp v s).running = s.running := rfl
@[simp] theorem setIp_stepCount (v : Nat) (s : State) : (setIp v s).stepCount = s.stepCount := rfl
@[simp] theorem setIp_haltReason (v : Nat) (s : State) : (setIp v s).haltReason = s.haltReason := rfl
@[simp] theorem setIp_finalized (v : Nat) (s : State) : (setIp v s).finalized = s.finalized := rfl
@[simp] theorem setIp_scheduled (v : Nat) (s : State) : (setIp v s).scheduled = s.scheduled := rfl
@[simp] theorem setIp_fault (v : Nat) (s : State) : (setIp v s).fault = s.fault := rfl
@[simp] theorem setIp_params (v : Nat) (s : State) : (setIp v s).params = s.params := rfl
@[simp] theorem setIp_registered (v : Nat) (s : State) : (setIp v s).registered = s.registered := rfl
@[simp] theorem setIp_out (v : Nat) (s : State) : (setIp v s).out = s.out := rfl
@[simp] theorem setIp_input (v : Nat) (s : State) : (setIp v s).input = s.input := rfl

@[simp] theorem setMem_acc (m : Memory) (s : State) : (setMem m s).acc = s.acc := rfl
@[simp] theorem setMem_ip (m : Memory) (s : State) : (setMem m s).ip = s.ip := rfl
@[simp] theorem setMem_mem (m : Memory) (s : State) : (setMem m s).mem = m := rfl
@[simp] theorem setMem_running (m : Memory) (s : State) : (setMem m s).running = s.running := rfl
@[simp] theorem setMem_stepCount (m : Memory) (s : State) : (setMem m s).stepCount = s.stepCount := rfl
@[simp] theorem setMem_haltReason (m : Memory) (s : State) : (setMem m s).haltReason = s.haltReason := rfl
@[simp] theorem setMem_finalized (m : Memory) (s : State) : (setMem m s).finalized = s.finalized := rfl
@[simp] theorem setMem_scheduled (m : Memory) (s : State) : (setMem m s).scheduled = s.scheduled := rfl
@[simp] theorem setMem_fault (m : Memory) (s : State) : (setMem m s).fault = s.fault := rfl
@[simp] theorem setMem_params (m : Memory) (s : State) : (setMem m s).params = s.params := rfl
@[simp] theorem setMem_registered (m : Memory) (s : State) : (setMem m s).registered = s.registered := rfl
@[simp] theorem setMem_out (m : Memory) (s : State) : (setMem m s).out = s.out := rfl
@[simp] theorem setMem_input (m : Memory) (s : State) : (setMem m s).input = s.input := rfl

@[simp] theorem halt_acc (r : HaltReason) (s : State) : (halt r s).acc = s.acc := rfl
@[simp] theorem halt_ip (r : HaltReason) (s : State) : (halt r s).ip = s.ip := rfl
@[simp] theorem halt_mem (r : HaltReason) (s : State) : (halt r s).mem = s.mem := rfl
@[simp] theorem halt_running (r : HaltReason) (s : State) : (halt r s).running = false := rfl
@[simp] theorem halt_stepCount (r : HaltReason) (s : State) : (halt r s).stepCount = s.stepCount := rfl
@[simp] theorem halt_haltReason (r : HaltReason) (s : State) : (halt r s).haltReason = r := rfl
@[simp] theorem halt_finalized (r : HaltReason) (s : State) : (halt r s).finalized = s.finalized := rfl
@[simp] theorem halt_scheduled (r : HaltReason) (s : State) : (halt r s).scheduled = s.scheduled := rfl
@[simp] theorem halt_fault (r : HaltReason) (s : State) : (halt r s).fault = s.fault := rfl
@[simp] theorem halt_params (r : HaltReason) (s : State) : (halt r s).params = s.params := rfl
@[simp] theorem halt_registered (r : HaltReason) (s : State) : (halt r s).registered = s.registered := rfl
@[simp] theorem halt_out (r : HaltReason) (s : State) : (halt r s).out = s.out := rfl
@[simp] theorem halt_input (r : HaltReason) (s : State) : (halt r s).input = s.input := rfl

@[simp] theorem countStep_acc (s : State) : (countStep s).acc = s.acc := rfl
@[simp] theorem countStep_ip (s : State) : (countStep s).ip = s.ip := rfl
@[simp] theorem countStep_mem (s : State) : (countStep s).mem = s.mem := rfl
@[simp] theorem countStep_running (s : State) : (countStep s).running = s.running := rfl
@[simp] theorem countStep_stepCount (s : State) : (countStep s).stepCount = s.stepCount + 1 := rfl
@[simp] theorem countStep_haltReason (s : State) : (countStep s).haltReason = s.haltReason := rfl
@[simp] theorem countStep_finalized (s : State) : (countStep s).finalized = s.finalized := rfl
@[simp] theorem countStep_scheduled (s : State) : (countStep s).scheduled = s.scheduled := rfl
@[simp] theorem countStep_fault (s : State) : (countStep s).fault = s.fault := rfl
@[simp] theorem countStep_params (s : State) : (countStep s).params = s.params := rfl
@[simp] theorem countStep_registered (s : State) : (countStep s).registered = s.registered := rfl
@[simp] theorem countStep_out (s : State) : (countStep s).out = s.out := rfl
@[simp] theorem countStep_input (s : State) : (countStep s).input = s.input := rfl

@[simp] theorem emit_acc (e : Event) (s : State) : (emit e s).acc = s.acc := rfl
@[simp] theorem emit_ip (e : Event) (s : State) : (emit e s).ip = s.ip := rfl
@[simp] theorem emit_mem (e : Event) (s : State) : (emit e s).mem = s.mem := rfl
@[simp] theorem emit_running (e : Event) (s : State) : (emit e s).running = s.running := rfl
@[simp] theorem emit_stepCount (e : Event) (s : State) : (emit e s).stepCount = s.stepCount := rfl
@[simp] theorem emit_haltReason (e : Event) (s : State) : (emit e s).haltReason = s.haltReason := rfl
@[simp] theorem emit_finalized (e : Event) (s : State) : (emit e s).finalized = s.finalized := rfl
@[simp] theorem emit_scheduled (e : Event) (s : State) : (emit e s).scheduled = s.scheduled := rfl
@[simp] theorem emit_fault (e : Event) (s : State) : (emit e s).fault = s.fault := rfl
@[simp] theorem emit_params (e : Event) (s : State) : (emit e s).params = s.params := rfl
@[simp] theorem emit_registered (e : Event) (s : State) : (emit e s).registered = s.registered := rfl
@[simp] theorem emit_out (e : Event) (s : State) : (emit e s).out = s.out ++ delivered s e := rfl
@[simp] theorem emit_input (e : Event) (s : State) : (emit e s).input = s.input := rfl

@[simp] theorem setFinalized_acc (b : Bool) (s : State) : (setFinalized b s).acc = s.acc := rfl
@[simp] theorem setFinalized_ip (b : Bool) (s : State) : (setFinalized b s).ip = s.ip := rfl
@[simp] theorem setFinalized_mem (b : Bool) (s : State) : (setFinalized b s).mem = s.mem := rfl
@[simp] theorem setFinalized_running (b : Bool) (s : State) : (setFinalized b s).running = s.running := rfl
@[simp] theorem setFinalized_stepCount (b : Bool) (s : State) : (setFinalized b s).stepCount = s.stepCount := rfl
@[simp] theorem setFinalized_haltReason (b : Bool) (s : State) : (setFinalized b s).haltReason = s.haltReason := rfl
@[simp] theorem setFinalized_finalized (b : Bool) (s : State) : (setFinalized b s).finalized = b := rfl
@[simp] theorem setFinalized_scheduled (b : Bool) (s : State) : (setFinalized b s).scheduled = s.scheduled := rfl
@[simp] theorem setFinalized_fault (b : Bool) (s : State) : (setFinalized b s).fault = s.fault := rfl
@[simp] theorem setFinalized_params (b : Bool) (s : State) : (setFinalized b s).params = s.params := rfl
@[simp] theorem setFinalized_registered (b : Bool) (s : State) : (setFinalized b s).registered = s.registered := rfl
@[simp] theorem setFinalized_out (b : Bool) (s : State) : (setFinalized b s).out = s.out := rfl
@[simp] theorem setFinalized_input (b : Bool) (s : State) : (setFinalized b s).input = s.input := rfl

@[simp] theorem setScheduled_acc (b : Bool) (s : State) : (setScheduled b s).acc = s.acc := rfl
@[simp] theorem setScheduled_ip (b : Bool) (s : State) : (setScheduled b s).ip = s.ip := rfl
@[simp] theorem setScheduled_mem (b : Bool) (s : State) : (setScheduled b s).mem = s.mem := rfl
@[simp] theorem setScheduled_running (b : Bool) (s : State) : (setScheduled b s).running = s.running := rfl
@[simp] theorem setScheduled_stepCount (b : Bool) (s : State) : (setScheduled b s).stepCount = s.stepCount := rfl
@[simp] theorem setScheduled_haltReason (b : Bool) (s : State) : (setScheduled b s).haltReason = s.haltReason := rfl
@[simp] theorem setScheduled_finalized (b : Bool) (s : State) : (setScheduled b s).finalized = s.finalized := rfl
@[simp] theorem setScheduled_scheduled (b : Bool) (s : State) : (setScheduled b s).scheduled = b := rfl
@[simp] theorem setScheduled_fault (b : Bool) (s : State) : (setScheduled b s).fault = s.fault := rfl
@[simp] theorem setScheduled_params (b : Bool) (s : State) : (setScheduled b s).params = s.params := rfl
@[simp] theorem setScheduled_registered (b : Bool) (s : State) : (setScheduled b s).registered = s.registered := rfl
@[simp] theorem setScheduled_out (b : Bool) (s : State) : (setScheduled b s).out = s.out := rfl
@[simp] theorem setScheduled_input (b : Bool) (s : State) : (setScheduled b s).input = s.input := rfl

@[simp] theorem recordFault_acc (f : Fault) (s : State) : (recordFault f s).acc = s.acc := rfl
@[simp] theorem recordFault_ip (f : Fault) (s : State) : (recordFault f s).ip = s.ip := rfl
@[simp] theorem recordFault_mem (f : Fault) (s : State) : (recordFault f s).mem = s.mem := rfl
@[simp] theorem recordFault_running (f : Fault) (s : State) : (recordFault f s).running = s.running := rfl
@[simp] theorem recordFault_stepCount (f : Fault) (s : State) : (recordFault f s).stepCount = s.stepCount := rfl
@[simp] theorem recordFault_haltReason (f : Fault) (s : State) : (recordFault f s).haltReason = s.haltReason := rfl
@[simp] theorem recordFault_finalized (f : Fault) (s : State) : (recordFault f s).finalized = s.finalized := rfl
@[simp] theorem recordFault_scheduled (f : Fault) (s : State) : (recordFault f s).scheduled = s.scheduled := rfl
@[simp] theorem recordFault_fault (f : Fault) (s : State) : (recordFault f s).fault = s.fault.or (some f) := rfl
@[simp] theorem recordFault_params (f : Fault) (s : State) : (recordFault f s).params = s.params := rfl
@[simp] theorem recordFault_registered (f : Fault) (s : State) : (recordFault f s).registered = s.registered := rfl
@[simp] theorem recordFault_out (f : Fault) (s : State) : (recordFault f s).out = s.out := rfl
@[simp] theorem recordFault_input (f : Fault) (s : State) : (recordFault f s).input = s.input := rfl

@[simp] theorem emitLog_eq (r : LogRecord) (s : State) : emitLog r s = emit (.log r) s := rfl

@[simp] theorem notifyCompletion_eq (s : State) : notifyCompletion s = emit .completion s := rfl

theorem emitTrace_eq (a : Nat) (i : Instr) (s : State) :
    emitTrace a i s = emit (.trace (.of a i.mnemonic i.operand s.acc)) s := rfl

@[simp] theorem delivered_setFinalized (b : Bool) (s : State) (e : Event) : delivered (setFinalized b s) e = delivered s e := rfl

@[simp] theorem delivered_emit (e f : Event) (s : State) : delivered (emit e s) f = delivered s f := rfl

@[simp] theorem delivered_setAcc (v : HostInt) (s : State) (e : Event) : delivered (setAcc v s) e = delivered s e := rfl

@[simp] theorem delivered_setIp (v : Nat) (s : State) (e : Event) : delivered (setIp v s) e = delivered s e := rfl

@[simp] theorem delivered_setMem (m : Memory) (s : State) (e : Event) : delivered (setMem m s) e = delivered s e := rfl

@[simp] theorem delivered_halt (r : HaltReason) (s : State) (e : Event) : delivered (halt r s) e = delivered s e := rfl

@[simp] theorem delivered_countStep (s : State) (e : Event) : delivered (countStep s) e = delivered s e := rfl

@[simp] theorem delivered_setScheduled (b : Bool) (s : State) (e : Event) : delivered (setScheduled b s) e = delivered s e := rfl

/-- What a channel delivers depends only on whether it is registered (R109). -/
theorem delivered_congr {s t : State} (h : t.registered = s.registered) (e : Event) : delivered t e = delivered s e := by
  simp [delivered, h]

@[simp] theorem emitTrace_acc (a : Nat) (i : Instr) (s : State) : (emitTrace a i s).acc = s.acc := rfl
@[simp] theorem emitTrace_ip (a : Nat) (i : Instr) (s : State) : (emitTrace a i s).ip = s.ip := rfl
@[simp] theorem emitTrace_mem (a : Nat) (i : Instr) (s : State) : (emitTrace a i s).mem = s.mem := rfl
@[simp] theorem emitTrace_running (a : Nat) (i : Instr) (s : State) : (emitTrace a i s).running = s.running := rfl
@[simp] theorem emitTrace_stepCount (a : Nat) (i : Instr) (s : State) : (emitTrace a i s).stepCount = s.stepCount := rfl
@[simp] theorem emitTrace_haltReason (a : Nat) (i : Instr) (s : State) : (emitTrace a i s).haltReason = s.haltReason := rfl
@[simp] theorem emitTrace_finalized (a : Nat) (i : Instr) (s : State) : (emitTrace a i s).finalized = s.finalized := rfl
@[simp] theorem emitTrace_scheduled (a : Nat) (i : Instr) (s : State) : (emitTrace a i s).scheduled = s.scheduled := rfl
@[simp] theorem emitTrace_fault (a : Nat) (i : Instr) (s : State) : (emitTrace a i s).fault = s.fault := rfl
@[simp] theorem emitTrace_params (a : Nat) (i : Instr) (s : State) : (emitTrace a i s).params = s.params := rfl
@[simp] theorem emitTrace_registered (a : Nat) (i : Instr) (s : State) : (emitTrace a i s).registered = s.registered := rfl
@[simp] theorem emitTrace_input (a : Nat) (i : Instr) (s : State) : (emitTrace a i s).input = s.input := rfl

@[simp] theorem finalize_acc (s : State) : (finalize s).acc = s.acc := by unfold finalize; split <;> rfl
@[simp] theorem finalize_ip (s : State) : (finalize s).ip = s.ip := by unfold finalize; split <;> rfl
@[simp] theorem finalize_mem (s : State) : (finalize s).mem = s.mem := by unfold finalize; split <;> rfl
@[simp] theorem finalize_running (s : State) : (finalize s).running = s.running := by unfold finalize; split <;> rfl
@[simp] theorem finalize_stepCount (s : State) : (finalize s).stepCount = s.stepCount := by unfold finalize; split <;> rfl
@[simp] theorem finalize_haltReason (s : State) : (finalize s).haltReason = s.haltReason := by unfold finalize; split <;> rfl
@[simp] theorem finalize_scheduled (s : State) : (finalize s).scheduled = s.scheduled := by unfold finalize; split <;> rfl
@[simp] theorem finalize_fault (s : State) : (finalize s).fault = s.fault := by unfold finalize; split <;> rfl
@[simp] theorem finalize_params (s : State) : (finalize s).params = s.params := by unfold finalize; split <;> rfl
@[simp] theorem finalize_registered (s : State) : (finalize s).registered = s.registered := by unfold finalize; split <;> rfl
@[simp] theorem finalize_input (s : State) : (finalize s).input = s.input := by unfold finalize; split <;> rfl
@[simp] theorem finalize_finalized (s : State) : (finalize s).finalized = true := by
  unfold finalize; split <;> simp_all

/-- What finalization delivers: nothing the second time, else the summary and the completion (R103). -/
theorem finalize_out (s : State) :
    (finalize s).out =
      s.out ++ if s.finalized then [] else delivered s (.log (.of (.summary s.stepCount s.ip))) ++ delivered s .completion := by
  unfold finalize
  split <;> simp [*]

@[simp] theorem finalizeUnless_acc (b : Bool) (s : State) : (finalizeUnless b s).acc = s.acc := by
  unfold finalizeUnless; split <;> simp
@[simp] theorem finalizeUnless_ip (b : Bool) (s : State) : (finalizeUnless b s).ip = s.ip := by
  unfold finalizeUnless; split <;> simp
@[simp] theorem finalizeUnless_mem (b : Bool) (s : State) : (finalizeUnless b s).mem = s.mem := by
  unfold finalizeUnless; split <;> simp
@[simp] theorem finalizeUnless_running (b : Bool) (s : State) : (finalizeUnless b s).running = s.running := by
  unfold finalizeUnless; split <;> simp
@[simp] theorem finalizeUnless_stepCount (b : Bool) (s : State) : (finalizeUnless b s).stepCount = s.stepCount := by
  unfold finalizeUnless; split <;> simp
@[simp] theorem finalizeUnless_haltReason (b : Bool) (s : State) : (finalizeUnless b s).haltReason = s.haltReason := by
  unfold finalizeUnless; split <;> simp
@[simp] theorem finalizeUnless_scheduled (b : Bool) (s : State) : (finalizeUnless b s).scheduled = s.scheduled := by
  unfold finalizeUnless; split <;> simp
@[simp] theorem finalizeUnless_fault (b : Bool) (s : State) : (finalizeUnless b s).fault = s.fault := by
  unfold finalizeUnless; split <;> simp
@[simp] theorem finalizeUnless_params (b : Bool) (s : State) : (finalizeUnless b s).params = s.params := by
  unfold finalizeUnless; split <;> simp
@[simp] theorem finalizeUnless_registered (b : Bool) (s : State) : (finalizeUnless b s).registered = s.registered := by
  unfold finalizeUnless; split <;> simp
@[simp] theorem finalizeUnless_input (b : Bool) (s : State) : (finalizeUnless b s).input = s.input := by
  unfold finalizeUnless; split <;> simp
@[simp] theorem finalizeUnless_finalized (b : Bool) (s : State) : (finalizeUnless b s).finalized = (!b || s.finalized) := by
  unfold finalizeUnless; split <;> simp_all

@[simp] theorem traceUnless_acc (b : Bool) (a : Nat) (w : HostInt) (i : Instr) (s : State) :
    (traceUnless b a w i s).acc = s.acc := by unfold traceUnless; split <;> simp
@[simp] theorem traceUnless_ip (b : Bool) (a : Nat) (w : HostInt) (i : Instr) (s : State) :
    (traceUnless b a w i s).ip = s.ip := by unfold traceUnless; split <;> simp
@[simp] theorem traceUnless_mem (b : Bool) (a : Nat) (w : HostInt) (i : Instr) (s : State) :
    (traceUnless b a w i s).mem = s.mem := by unfold traceUnless; split <;> simp
@[simp] theorem traceUnless_running (b : Bool) (a : Nat) (w : HostInt) (i : Instr) (s : State) :
    (traceUnless b a w i s).running = s.running := by unfold traceUnless; split <;> simp
@[simp] theorem traceUnless_stepCount (b : Bool) (a : Nat) (w : HostInt) (i : Instr) (s : State) :
    (traceUnless b a w i s).stepCount = s.stepCount := by unfold traceUnless; split <;> simp
@[simp] theorem traceUnless_haltReason (b : Bool) (a : Nat) (w : HostInt) (i : Instr) (s : State) :
    (traceUnless b a w i s).haltReason = s.haltReason := by unfold traceUnless; split <;> simp
@[simp] theorem traceUnless_finalized (b : Bool) (a : Nat) (w : HostInt) (i : Instr) (s : State) :
    (traceUnless b a w i s).finalized = s.finalized := by unfold traceUnless; split <;> simp
@[simp] theorem traceUnless_scheduled (b : Bool) (a : Nat) (w : HostInt) (i : Instr) (s : State) :
    (traceUnless b a w i s).scheduled = s.scheduled := by unfold traceUnless; split <;> simp
@[simp] theorem traceUnless_fault (b : Bool) (a : Nat) (w : HostInt) (i : Instr) (s : State) :
    (traceUnless b a w i s).fault = s.fault := by unfold traceUnless; split <;> simp
@[simp] theorem traceUnless_params (b : Bool) (a : Nat) (w : HostInt) (i : Instr) (s : State) :
    (traceUnless b a w i s).params = s.params := by unfold traceUnless; split <;> simp
@[simp] theorem traceUnless_registered (b : Bool) (a : Nat) (w : HostInt) (i : Instr) (s : State) :
    (traceUnless b a w i s).registered = s.registered := by unfold traceUnless; split <;> simp
@[simp] theorem traceUnless_input (b : Bool) (a : Nat) (w : HostInt) (i : Instr) (s : State) :
    (traceUnless b a w i s).input = s.input := by unfold traceUnless; split <;> simp

@[simp] theorem finalizeIfHalted_acc (b : Bool) (s : State) : (finalizeIfHalted b s).acc = s.acc := by
  unfold finalizeIfHalted; split <;> simp
@[simp] theorem finalizeIfHalted_ip (b : Bool) (s : State) : (finalizeIfHalted b s).ip = s.ip := by
  unfold finalizeIfHalted; split <;> simp
@[simp] theorem finalizeIfHalted_mem (b : Bool) (s : State) : (finalizeIfHalted b s).mem = s.mem := by
  unfold finalizeIfHalted; split <;> simp
@[simp] theorem finalizeIfHalted_running (b : Bool) (s : State) : (finalizeIfHalted b s).running = s.running := by
  unfold finalizeIfHalted; split <;> simp
@[simp] theorem finalizeIfHalted_stepCount (b : Bool) (s : State) : (finalizeIfHalted b s).stepCount = s.stepCount := by
  unfold finalizeIfHalted; split <;> simp
@[simp] theorem finalizeIfHalted_haltReason (b : Bool) (s : State) : (finalizeIfHalted b s).haltReason = s.haltReason := by
  unfold finalizeIfHalted; split <;> simp
@[simp] theorem finalizeIfHalted_scheduled (b : Bool) (s : State) : (finalizeIfHalted b s).scheduled = s.scheduled := by
  unfold finalizeIfHalted; split <;> simp
@[simp] theorem finalizeIfHalted_fault (b : Bool) (s : State) : (finalizeIfHalted b s).fault = s.fault := by
  unfold finalizeIfHalted; split <;> simp
@[simp] theorem finalizeIfHalted_params (b : Bool) (s : State) : (finalizeIfHalted b s).params = s.params := by
  unfold finalizeIfHalted; split <;> simp
@[simp] theorem finalizeIfHalted_registered (b : Bool) (s : State) : (finalizeIfHalted b s).registered = s.registered := by
  unfold finalizeIfHalted; split <;> simp
@[simp] theorem finalizeIfHalted_input (b : Bool) (s : State) : (finalizeIfHalted b s).input = s.input := by
  unfold finalizeIfHalted; split <;> simp
@[simp] theorem finalizeIfHalted_finalized (b : Bool) (s : State) :
    (finalizeIfHalted b s).finalized = (s.finalized || (!s.running && !b)) := by
  unfold finalizeIfHalted; split <;> simp_all [Bool.or_comm]

@[simp] theorem afterAction_acc (b c : Bool) (a : Nat) (w : HostInt) (i : Instr) (s : State) :
    (afterAction b c a w i s).acc = s.acc := by simp [afterAction]
@[simp] theorem afterAction_ip (b c : Bool) (a : Nat) (w : HostInt) (i : Instr) (s : State) :
    (afterAction b c a w i s).ip = s.ip := by simp [afterAction]
@[simp] theorem afterAction_mem (b c : Bool) (a : Nat) (w : HostInt) (i : Instr) (s : State) :
    (afterAction b c a w i s).mem = s.mem := by simp [afterAction]
@[simp] theorem afterAction_running (b c : Bool) (a : Nat) (w : HostInt) (i : Instr) (s : State) :
    (afterAction b c a w i s).running = s.running := by simp [afterAction]
@[simp] theorem afterAction_stepCount (b c : Bool) (a : Nat) (w : HostInt) (i : Instr) (s : State) :
    (afterAction b c a w i s).stepCount = s.stepCount := by simp [afterAction]
@[simp] theorem afterAction_haltReason (b c : Bool) (a : Nat) (w : HostInt) (i : Instr) (s : State) :
    (afterAction b c a w i s).haltReason = s.haltReason := by simp [afterAction]
@[simp] theorem afterAction_scheduled (b c : Bool) (a : Nat) (w : HostInt) (i : Instr) (s : State) :
    (afterAction b c a w i s).scheduled = s.scheduled := by simp [afterAction]
@[simp] theorem afterAction_fault (b c : Bool) (a : Nat) (w : HostInt) (i : Instr) (s : State) :
    (afterAction b c a w i s).fault = s.fault := by simp [afterAction]
@[simp] theorem afterAction_params (b c : Bool) (a : Nat) (w : HostInt) (i : Instr) (s : State) :
    (afterAction b c a w i s).params = s.params := by simp [afterAction]
@[simp] theorem afterAction_registered (b c : Bool) (a : Nat) (w : HostInt) (i : Instr) (s : State) :
    (afterAction b c a w i s).registered = s.registered := by simp [afterAction]
@[simp] theorem afterAction_input (b c : Bool) (a : Nat) (w : HostInt) (i : Instr) (s : State) :
    (afterAction b c a w i s).input = s.input := by simp [afterAction]
@[simp] theorem afterAction_finalized (b c : Bool) (a : Nat) (w : HostInt) (i : Instr) (s : State) :
    (afterAction b c a w i s).finalized = (s.finalized || (!s.running && !c)) := by simp [afterAction]

end Sys2Proof.Machine
end

