-- ==== Sys2Proof/Laws/Ops.lean ====
section
/-! SUPPORT. What each shared operation can answer, said once: the reads and writes, the bind of the pseudocode, and the shapes
of the instructions. -/

namespace Sys2Proof.Machine

variable {α β : Type} {s t : State} {f : Fault}

@[simp] theorem ok_bind (a : α) (k : α → Except Fault β) : (Except.ok a >>= k) = k a := rfl

@[simp] theorem error_bind (e : Fault) (k : α → Except Fault β) : (Except.error e >>= k) = .error e := rfl

@[simp] theorem pure_eq_ok (a : α) : (pure a : Except Fault α) = .ok a := rfl

/-- A sequence of primitives ends in a value exactly where each does (60_exceptions.md R159). -/
theorem bind_eq_ok {x : Except Fault α} {k : α → Except Fault β} {b : β} :
    (x >>= k) = .ok b ↔ ∃ a, x = .ok a ∧ k a = .ok b := by
  cases x <;> simp

/-- A sequence of primitives raises the first fault one of them raises (R159). -/
theorem bind_eq_error {x : Except Fault α} {k : α → Except Fault β} :
    (x >>= k) = .error f ↔ x = .error f ∨ ∃ a, x = .ok a ∧ k a = .error f := by
  cases x <;> simp

@[simp] theorem finish_ok (s : State) : finish (.ok s) = .next s := rfl

@[simp] theorem finish_error (f : Fault) : finish (.error f) = .fault f := rfl

@[simp] theorem finish_eq_next {x : Except Fault State} : finish x = .next t ↔ x = .ok t := by
  cases x <;> simp [finish]

@[simp] theorem finish_eq_fault {x : Except Fault State} : finish x = .fault f ↔ x = .error f := by
  cases x <;> simp [finish]

@[simp] theorem finish_ne_refused {x : Except Fault State} {r : Refusal} : finish x ≠ .refused r := by
  cases x <;> simp [finish]

theorem inAddr_iff {a : Int} : inAddr a = true ↔ 0 ≤ a ∧ a ≤ 0xFFFFF := by simp [inAddr]

theorem readAcc_eq_ok {x : HostInt} : readAcc s = .ok x ↔ s.acc = some x := by
  unfold readAcc; split <;> simp_all

theorem readAcc_eq_error : readAcc s = .error f ↔ s.acc = none ∧ f = .accUnwritten := by
  unfold readAcc; split <;> simp_all [eq_comm]

theorem memRead_eq_ok {a : Int} {w : HostInt} :
    memRead s a = .ok w ↔ inAddr a = true ∧ Memory.read s.mem a.toNat = some w := by
  unfold memRead
  split
  · split <;> simp_all
  · simp_all

theorem memRead_eq_error {a : Int} :
    memRead s a = .error f ↔
      (inAddr a = true ∧ Memory.read s.mem a.toNat = none ∧ f = .undefinedDataRead a.toNat) ∨
        (inAddr a = false ∧ f = .dataAddressOutOfRange a) := by
  cases ha : inAddr a
  · simp [memRead, ha, eq_comm]
  · cases hm : Memory.read s.mem a.toNat <;> simp [memRead, ha, hm, eq_comm]

theorem memWrite_eq_ok {a : Int} {v : HostInt} :
    memWrite s a v = .ok t ↔ inAddr a = true ∧ t = setMem (Memory.write s.mem a.toNat v) s := by
  cases ha : inAddr a <;> simp [memWrite, ha, eq_comm]

theorem memWrite_eq_error {a : Int} {v : HostInt} :
    memWrite s a v = .error f ↔ inAddr a = false ∧ f = .dataAddressOutOfRange a := by
  cases ha : inAddr a <;> simp [memWrite, ha, eq_comm]

theorem inAddr_natCast (n : Nat) : inAddr (n : Int) = decide (n < addrSpace) := by
  rw [Bool.eq_iff_iff, inAddr_iff, decide_eq_true_eq, addrSpace]; omega

/-- An address of the machine, as the key of its cell. -/
theorem toNat_lt_of_inAddr {a : Int} (h : inAddr a = true) : a.toNat < addrSpace := by
  have := inAddr_iff.1 h; simp only [addrSpace]; omega

/-- A direct address is always in `Addr` (41_load_store.md R115). -/
@[simp] theorem inAddr_directAddr (v : Nat) : inAddr (directAddr v) = true := by
  rw [inAddr_iff]; simp only [directAddr, zext20]; omega

@[simp] theorem toNat_directAddr (v : Nat) : (directAddr v).toNat = zext20 v := rfl

theorem zext20_lt (v : Nat) : zext20 v < addrSpace := by simp only [zext20, addrSpace]; omega

theorem zext20_of_lt {v : Nat} (h : v < addrSpace) : zext20 v = v := Nat.mod_eq_of_lt h

theorem readDirect_eq_ok {v : Nat} {m : HostInt} :
    readDirect v s = .ok m ↔ Memory.read s.mem (zext20 v) = some m := by
  simp [readDirect, memRead_eq_ok]

theorem readDirect_eq_error {v : Nat} :
    readDirect v s = .error f ↔ Memory.read s.mem (zext20 v) = none ∧ f = .undefinedDataRead (zext20 v) := by
  simp [readDirect, memRead_eq_error]

theorem fetch_eq_some {a : Nat} {w : HostInt} : fetch s a = some w ↔ a < addrSpace ∧ Memory.read s.mem a = some w := by
  simp [fetch, inAddr_natCast]

theorem fetch_eq_none {a : Nat} : fetch s a = none ↔ addrSpace ≤ a ∨ Memory.read s.mem a = none := by
  simp only [fetch, inAddr_natCast, decide_eq_true_eq]
  split <;> simp_all

end Sys2Proof.Machine
end

