-- ==== Sys2Proof/Laws/Exec.lean ====
section
/-! SUPPORT. Everything each instruction shape can answer: one lemma for a next state and one for a fault, which proofs cite
instead of unfolding a meaning. -/

namespace Sys2Proof.Machine

variable {s t : State} {f : Fault} {v : Nat}

theorem accWithMemory_eq_next {g : HostInt → HostInt → Except Fault HostInt} :
    accWithMemory g v s = .next t ↔
      ∃ m x r, Memory.read s.mem (zext20 v) = some m ∧ s.acc = some x ∧ g x m = .ok r ∧ t = setAcc r s := by
  simp [accWithMemory, bind_eq_ok, readDirect_eq_ok, readAcc_eq_ok, eq_comm (a := t)]

theorem accWithMemory_eq_fault {g : HostInt → HostInt → Except Fault HostInt} :
    accWithMemory g v s = .fault f ↔
      (Memory.read s.mem (zext20 v) = none ∧ f = .undefinedDataRead (zext20 v)) ∨
        ∃ m, Memory.read s.mem (zext20 v) = some m ∧
          ((s.acc = none ∧ f = .accUnwritten) ∨ ∃ x, s.acc = some x ∧ g x m = .error f) := by
  simp [accWithMemory, bind_eq_error, readDirect_eq_ok, readDirect_eq_error, readAcc_eq_ok, readAcc_eq_error]

theorem accAlone_eq_next {g : HostInt → HostInt} :
    accAlone g s = .next t ↔ ∃ x, s.acc = some x ∧ t = setAcc (g x) s := by
  simp [accAlone, bind_eq_ok, readAcc_eq_ok, eq_comm (a := t)]

theorem accAlone_eq_fault {g : HostInt → HostInt} : accAlone g s = .fault f ↔ s.acc = none ∧ f = .accUnwritten := by
  simp [accAlone, bind_eq_error, readAcc_eq_error]

theorem execLdv_eq_next : execLdv v s = .next t ↔ ∃ m, Memory.read s.mem (zext20 v) = some m ∧ t = setAcc m s := by
  simp [execLdv, bind_eq_ok, readDirect_eq_ok, eq_comm (a := t)]

theorem execLdv_eq_fault :
    execLdv v s = .fault f ↔ Memory.read s.mem (zext20 v) = none ∧ f = .undefinedDataRead (zext20 v) := by
  simp [execLdv, bind_eq_error, readDirect_eq_error]

theorem execStv_eq_next :
    execStv v s = .next t ↔ ∃ x, s.acc = some x ∧ t = setMem (Memory.write s.mem (zext20 v) x) s := by
  simp [execStv, bind_eq_ok, readAcc_eq_ok, memWrite_eq_ok]

theorem execStv_eq_fault : execStv v s = .fault f ↔ s.acc = none ∧ f = .accUnwritten := by
  simp [execStv, bind_eq_error, readAcc_eq_error, memWrite_eq_error]

theorem execLdiv_eq_next :
    execLdiv v s = .next t ↔
      ∃ p m, Memory.read s.mem (zext20 v) = some p ∧ inAddr (indirectAddr p) = true ∧
        Memory.read s.mem (indirectAddr p).toNat = some m ∧ t = setAcc m s := by
  simp [execLdiv, bind_eq_ok, readDirect_eq_ok, memRead_eq_ok, eq_comm (a := t), and_assoc]

theorem execLdiv_eq_fault :
    execLdiv v s = .fault f ↔
      (Memory.read s.mem (zext20 v) = none ∧ f = .undefinedDataRead (zext20 v)) ∨
        ∃ p, Memory.read s.mem (zext20 v) = some p ∧
          ((inAddr (indirectAddr p) = true ∧ Memory.read s.mem (indirectAddr p).toNat = none ∧
              f = .undefinedDataRead (indirectAddr p).toNat) ∨
            (inAddr (indirectAddr p) = false ∧ f = .dataAddressOutOfRange (indirectAddr p))) := by
  simp [execLdiv, bind_eq_error, readDirect_eq_ok, readDirect_eq_error, memRead_eq_error]

theorem execStiv_eq_next :
    execStiv v s = .next t ↔
      ∃ p x, Memory.read s.mem (zext20 v) = some p ∧ s.acc = some x ∧ inAddr (indirectAddr p) = true ∧
        t = setMem (Memory.write s.mem (indirectAddr p).toNat x) s := by
  simp [execStiv, bind_eq_ok, readDirect_eq_ok, readAcc_eq_ok, memWrite_eq_ok]

theorem execStiv_eq_fault :
    execStiv v s = .fault f ↔
      (Memory.read s.mem (zext20 v) = none ∧ f = .undefinedDataRead (zext20 v)) ∨
        ∃ p, Memory.read s.mem (zext20 v) = some p ∧
          ((s.acc = none ∧ f = .accUnwritten) ∨
            ∃ x, s.acc = some x ∧ inAddr (indirectAddr p) = false ∧ f = .dataAddressOutOfRange (indirectAddr p)) := by
  simp [execStiv, bind_eq_error, readDirect_eq_ok, readDirect_eq_error, readAcc_eq_ok, readAcc_eq_error,
    memWrite_eq_error]

theorem execJmn_eq_next :
    execJmn v s = .next t ↔
      ∃ x, s.acc = some x ∧ t = if isNegative x then setIp (jumpTarget v) s else s := by
  simp [execJmn, bind_eq_ok, readAcc_eq_ok, eq_comm (a := t)]

theorem execJmn_eq_fault : execJmn v s = .fault f ↔ s.acc = none ∧ f = .accUnwritten := by
  simp [execJmn, bind_eq_error, readAcc_eq_error]

theorem execOut_eq_next :
    execOut v s = .next t ↔ ∃ m, Memory.read s.mem (zext20 v) = some m ∧ t = emit (.log (.of (.output m))) s := by
  simp [execOut, bind_eq_ok, readDirect_eq_ok, eq_comm (a := t)]

theorem execOut_eq_fault :
    execOut v s = .fault f ↔ Memory.read s.mem (zext20 v) = none ∧ f = .undefinedDataRead (zext20 v) := by
  simp [execOut, bind_eq_error, readDirect_eq_error]

/-- What an action can do: write the accumulator, jump, store one cell, halt as HLT does, or send a log line. -/
inductive ActionEffect (s : State) : State → Prop where
  | acc (x : HostInt) : ActionEffect s (setAcc x s)
  | jump (a : Nat) (h : a < addrSpace) : ActionEffect s (setIp a s)
  | none : ActionEffect s s
  | store (a : Nat) (x : HostInt) (h : a < addrSpace) : ActionEffect s (setMem (Memory.write s.mem a x) s)
  | halt : ActionEffect s (setIp (s.ip - 1) (halt .haltInstr s))
  | log (l : LogLine) : ActionEffect s (emit (.log (.of l)) s)

/-- The inversion of `exec`: a next state is one of the effects above. -/
theorem exec_effect {i : Instr} (h : exec i s = .next t) : ActionEffect s t := by
  cases i with
  | ldc v => cases h; exact .acc _
  | ldv v => obtain ⟨m, _, rfl⟩ := execLdv_eq_next.1 h; exact .acc m
  | stv v => obtain ⟨x, _, rfl⟩ := execStv_eq_next.1 h; exact .store _ x (zext20_lt v)
  | add v => obtain ⟨_, _, r, _, _, _, rfl⟩ := accWithMemory_eq_next.1 h; exact .acc r
  | and v => obtain ⟨_, _, r, _, _, _, rfl⟩ := accWithMemory_eq_next.1 h; exact .acc r
  | or v => obtain ⟨_, _, r, _, _, _, rfl⟩ := accWithMemory_eq_next.1 h; exact .acc r
  | xor v => obtain ⟨_, _, r, _, _, _, rfl⟩ := accWithMemory_eq_next.1 h; exact .acc r
  | eql v => obtain ⟨_, _, r, _, _, _, rfl⟩ := accWithMemory_eq_next.1 h; exact .acc r
  | jmp v => cases h; exact .jump _ (zext20_lt v)
  | jmn v =>
    obtain ⟨x, _, rfl⟩ := execJmn_eq_next.1 h
    split
    · exact .jump _ (zext20_lt v)
    · exact .none
  | ldiv v => obtain ⟨_, m, _, _, _, rfl⟩ := execLdiv_eq_next.1 h; exact .acc m
  | stiv v => obtain ⟨_, x, _, _, hp, rfl⟩ := execStiv_eq_next.1 h; exact .store _ x (toNat_lt_of_inAddr hp)
  | out v => obtain ⟨m, _, rfl⟩ := execOut_eq_next.1 h; exact .log _
  | hlt v => cases h; exact .halt
  | not v => obtain ⟨x, _, rfl⟩ := accAlone_eq_next.1 h; exact .acc _
  | rar v => obtain ⟨x, _, rfl⟩ := accAlone_eq_next.1 h; exact .acc _

end Sys2Proof.Machine
end

