-- ==== Sys2Proof/Laws/Step.lean ====
section
/-! SUPPORT. Everything a step can do, said once: how it ends, from which every property of steps follows. -/

namespace Sys2Proof.Machine

variable {silent atomic : Bool} {s t : State} {f : Fault}

theorem ceilingReached_iff : ceilingReached s = true ↔ s.params.stepCeiling ≤ s.stepCount := by
  simp [ceilingReached]

/-- Counting a step does not change what is fetched. -/
@[simp] theorem fetch_countStep (s : State) (a : Nat) : fetch (countStep s) a = fetch s a := rfl

/-- The ways a step of `s` (with no fault) ends in a next state (40_step_engine.md R90). -/
inductive StepEnd (silent atomic : Bool) (s : State) : State → Prop where
  | ceiling (hc : s.params.stepCeiling ≤ s.stepCount + 1) :
      StepEnd silent atomic s (tripCeiling atomic (countStep s))
  | undefinedFetch (hc : s.stepCount + 1 < s.params.stepCeiling) (hf : fetch s s.ip = none) :
      StepEnd silent atomic s (haltUndefinedFetch atomic (countStep s))
  | invalidCommand {w code} (hc : s.stepCount + 1 < s.params.stepCeiling) (hf : fetch s s.ip = some w)
      (hd : decodeCell w = .error (.invalidCommand code)) :
      StepEnd silent atomic s (haltInvalidCommand code (countStep s))
  | action {w i u} (hc : s.stepCount + 1 < s.params.stepCeiling) (hf : fetch s s.ip = some w)
      (hd : decodeCell w = .ok i) (he : exec i (setIp (s.ip + 1) (countStep s)) = .next u) :
      StepEnd silent atomic s (afterAction silent atomic s.ip w i u)

/-- The inversion of a step: a next state is one of its ends. -/
theorem stepWith_end (h : stepWith silent atomic s = .next t) : s.fault = none ∧ StepEnd silent atomic s t := by
  unfold stepWith at h
  split at h
  · cases h
  · rename_i hs
    refine ⟨hs, ?_⟩
    unfold checkAndRun at h
    split at h
    · rename_i hc
      cases h; exact .ceiling (ceilingReached_iff.1 hc)
    · have hc : s.stepCount + 1 < s.params.stepCeiling := by
        have := mt ceilingReached_iff.2 ‹_›
        simpa using this
      unfold fetchAndRun at h
      split at h
      · rename_i hf
        cases h; exact .undefinedFetch hc hf
      · rename_i w hf
        unfold runWord at h
        split at h
        · cases h
        · rename_i hd
          cases h; exact .invalidCommand hc hf hd
        · rename_i i hd
          unfold dispatch at h
          split at h
          · rename_i u he
            cases h; exact .action hc hf hd he
          · cases h
          · cases h

/-- The ways a step of a state without a fault raises one (60_exceptions.md R158). -/
inductive StepFaults (s : State) (f : Fault) : Prop where
  | word {w} (hc : s.stepCount + 1 < s.params.stepCeiling) (hf : fetch s s.ip = some w)
      (hd : decodeCell w = .error (.wordOutOfRange w.toInt)) (h : f = .wordOutOfRange w.toInt) : StepFaults s f
  | action {w i} (hc : s.stepCount + 1 < s.params.stepCeiling) (hf : fetch s s.ip = some w)
      (hd : decodeCell w = .ok i) (he : exec i (setIp (s.ip + 1) (countStep s)) = .fault f) : StepFaults s f

/-- A cell fails to decode by its range exactly where it is outside `Word24`, and the failure names its value (R68). -/
theorem decodeCell_wordOutOfRange {w : HostInt} {x : Int} :
    decodeCell w = .error (.wordOutOfRange x) ↔ inWord24 w = false ∧ x = w.toInt := by
  unfold decodeCell
  split
  · rename_i h
    simp only [h, Bool.true_eq_false, false_and, iff_false]
    simp only [decode]
    split <;> split <;> simp
  · simp_all [eq_comm (a := x)]

/-- The inversion of a faulting step. -/
theorem stepWith_fault (hs : s.fault = none) (h : stepWith silent atomic s = .fault f) : StepFaults s f := by
  unfold stepWith at h
  rw [hs] at h
  simp only [checkAndRun] at h
  split at h
  · cases h
  · have hc : s.stepCount + 1 < s.params.stepCeiling := by
      have := mt ceilingReached_iff.2 ‹_›
      simpa using this
    unfold fetchAndRun at h
    split at h
    · cases h
    · rename_i w hf
      unfold runWord at h
      split at h
      · rename_i x hd
        cases h
        obtain ⟨hr, rfl⟩ := decodeCell_wordOutOfRange.1 hd
        exact .word hc hf hd rfl
      · cases h
      · rename_i i hd
        unfold dispatch at h
        split at h
        · cases h
        · rename_i g he
          cases h; exact .action hc hf hd he
        · cases h

/-- The step that trips the ceiling (R91). -/
theorem stepWith_ceiling (hs : s.fault = none) (hc : s.params.stepCeiling ≤ s.stepCount + 1) :
    stepWith silent atomic s = .next (tripCeiling atomic (countStep s)) := by
  simp [stepWith, hs, checkAndRun, ceilingReached, hc]

/-- Below the ceiling, a step fetches (R91, R92). -/
theorem stepWith_below (hs : s.fault = none) (hc : s.stepCount + 1 < s.params.stepCeiling) :
    stepWith silent atomic s = fetchAndRun silent atomic (countStep s) := by
  simp [stepWith, hs, checkAndRun, ceilingReached, Nat.not_le.2 hc]

/-- The step whose fetch finds no word (R92). -/
theorem stepWith_undefinedFetch (hs : s.fault = none) (hc : s.stepCount + 1 < s.params.stepCeiling)
    (hf : fetch s s.ip = none) :
    stepWith silent atomic s = .next (haltUndefinedFetch atomic (countStep s)) := by
  simp [stepWith_below hs hc, fetchAndRun, hf]

/-- The step whose fetch finds a word (R92, R93). -/
theorem stepWith_word {w : HostInt} (hs : s.fault = none) (hc : s.stepCount + 1 < s.params.stepCeiling)
    (hf : fetch s s.ip = some w) :
    stepWith silent atomic s = runWord silent atomic w (countStep s) := by
  simp [stepWith_below hs hc, fetchAndRun, hf]

/-- No step is refused: every instruction has a meaning. -/
theorem exec_ne_refused (i : Instr) (s : State) (r : Refusal) : exec i s ≠ .refused r := by
  cases i <;> simp [exec, execLdc, execLdv, execStv, execLdiv, execStiv, execAdd, execAnd, execOr, execXor, execEql,
    execNot, execRar, execJmp, execJmn, execHlt, execOut, accWithMemory, accAlone]

end Sys2Proof.Machine
end

