-- ==== Sys2Proof/Tests/Slice0.lean ====
section
/-! SUPPORT. Tests: expected results are those of 95_test_vectors.md, or worked from the rules by hand where said.  The second
half holds the witnesses: concrete states that meet the hypotheses of each statement. -/

namespace Sys2Proof.Tests

open Sys2Proof Sys2Proof.Machine

/-- A running machine at address `ip`, with these cells and this accumulator. -/
def machine (ip : Nat) (acc : Option HostInt) (mem : Memory) : State :=
  { State.reset with ip := ip, acc := acc, mem := mem, running := true }

def nextOf : Host.Outcome State Fault Refusal → Option State
  | .next s => some s
  | .fault _ => none
  | .refused _ => none

def faultOf : Host.Outcome State Fault Refusal → Option Fault
  | .next _ => none
  | .fault f => some f
  | .refused _ => none

def refusalOf : Host.Outcome State Fault Refusal → Option Refusal
  | .next _ => none
  | .fault _ => none
  | .refused r => some r

/-- The accumulator, as an integer, after an action. -/
def accAfter (o : Host.Outcome State Fault Refusal) : Option Int := (nextOf o).bind fun s => s.acc.map BitVec.toInt

/-- The word of a cell, as an integer, after an action. -/
def cellAfter (a : Nat) (o : Host.Outcome State Fault Refusal) : Option Int :=
  (nextOf o).bind fun s => (Memory.read s.mem a).map BitVec.toInt

def ipAfter (o : Host.Outcome State Fault Refusal) : Option Nat := (nextOf o).map State.ip

/-! Well-formedness: each check refuses an ill-formed term. -/

theorem test_wellFormed_refuses_21_bit_primary : (Instr.ldc 0x100000).wellFormed = false := by decide
theorem test_wellFormed_refuses_21_bit_jump : (Instr.jmp 0x100000).wellFormed = false := by decide
theorem test_wellFormed_refuses_17_bit_extended : (Instr.hlt 0x10000).wellFormed = false := by decide
theorem test_wellFormed_takes_the_widest : (Instr.stiv 0xFFFFF).wellFormed = true ∧ (Instr.rar 0xFFFF).wellFormed = true := by
  decide

/-! Decoding: the words of 95_test_vectors.md 2.1, one of each constructor, bit by bit from R61, R62, R65, R66. -/

theorem test_decode_ldc : decodeCell 0x0FFFFF = .ok (.ldc 0xFFFFF) := by decide
theorem test_decode_zero_word : decodeCell 0x000000 = .ok (.ldc 0) := by decide
theorem test_decode_ldv : decodeCell 0x1ABCDE = .ok (.ldv 0xABCDE) := by decide
theorem test_decode_stv : decodeCell 0x2ABCDE = .ok (.stv 0xABCDE) := by decide
theorem test_decode_add : decodeCell 0x3ABCDE = .ok (.add 0xABCDE) := by decide
theorem test_decode_and : decodeCell 0x4ABCDE = .ok (.and 0xABCDE) := by decide
theorem test_decode_or : decodeCell 0x5ABCDE = .ok (.or 0xABCDE) := by decide
theorem test_decode_xor : decodeCell 0x6ABCDE = .ok (.xor 0xABCDE) := by decide
theorem test_decode_eql : decodeCell 0x7ABCDE = .ok (.eql 0xABCDE) := by decide
theorem test_decode_jmp : decodeCell 0x8ABCDE = .ok (.jmp 0xABCDE) := by decide
theorem test_decode_jmn : decodeCell 0x9ABCDE = .ok (.jmn 0xABCDE) := by decide
theorem test_decode_ldiv : decodeCell 0xAABCDE = .ok (.ldiv 0xABCDE) := by decide
theorem test_decode_stiv : decodeCell 0xBABCDE = .ok (.stiv 0xABCDE) := by decide
theorem test_decode_out : decodeCell 0xCABCDE = .ok (.out 0xABCDE) := by decide
theorem test_decode_hlt : decodeCell 0xF0FFFF = .ok (.hlt 0xFFFF) := by decide
theorem test_decode_not : decodeCell 0xF1BEEF = .ok (.not 0xBEEF) := by decide
theorem test_decode_rar : decodeCell 0xF20001 = .ok (.rar 1) := by decide
theorem test_decode_unbound_D : decodeCell 0xDFFFFF = .error (.invalidCommand 0xD) := by decide
theorem test_decode_unbound_E : decodeCell 0xE12345 = .error (.invalidCommand 0xE) := by decide
theorem test_decode_unbound_F3 : decodeCell 0xF30000 = .error (.invalidCommand 0xF3) := by decide
theorem test_decode_unbound_FF : decodeCell 0xFF0000 = .error (.invalidCommand 0xFF) := by decide
theorem test_decode_out_of_range :
    decodeCell 0x1000000 = .error (.wordOutOfRange 0x1000000) ∧ decodeCell (-1) = .error (.wordOutOfRange (-1)) := by decide

/-! Encoding: W7. -/

theorem test_encode_masks_extended : encodeSpelling "HLT" 0x12345 = some 0xF02345 := by decide
theorem test_encode_alias : encodeSpelling "HALT" 0x12345 = some 0xF02345 := by decide
theorem test_encode_masks_primary : encodeSpelling "LDC" 0x123456 = some 0x023456 := by decide
theorem test_encode_stiv : encodeSpelling "STIV" 0xFFFFF = some 0xBFFFFF := by decide
theorem test_encode_unknown : encodeSpelling "FOO" 3 = none := by decide

/-! The fixed entry points: a row's word, decoded and run as the first instruction after reset. -/

theorem test_decodeTableWord : decodeTableWord 24 0xF00000 = some (.hlt 0) ∧ decodeTableWord 24 0xD00000 = none := by decide
theorem test_reset_runs_accumulator_reader : accAfter (step (State.reset.withFetchWord 24 0xF10000)) = some (-1) := by decide
/-- P6: on a machine whose accumulator is unwritten after reset. -/
theorem test_P6 :
    (nextOf (resetWith Params.vectors State.reset.registered [0x300001, 0xF00000] (some 0))).map (fun s => faultOf (step s)) =
      some (some .accUnwritten) := by decide
theorem test_step_runs_placed_word : accAfter (step (State.reset.withFetchWord 24 0x000005)) = some 5 := by decide

/-! Instructions: 95_test_vectors.md 2.2 to 2.5. -/

theorem test_ldc_largest : accAfter (exec (.ldc 0xFFFFF) (machine 1 none [])) = some 0xFFFFF := by decide
theorem test_ldv_negative : accAfter (exec (.ldv 0x20) (machine 1 none [(0x20, -5)])) = some (-5) := by decide
theorem test_ldv_undefined : faultOf (exec (.ldv 0x20) (machine 1 none [])) = some (.undefinedDataRead 0x20) := by decide
theorem test_stv_unmasked : cellAfter 0x21 (exec (.stv 0x21) (machine 1 (some 0x1000000) [])) = some 0x1000000 := by decide
theorem test_stv_unwritten : faultOf (exec (.stv 0x21) (machine 1 none [])) = some .accUnwritten := by decide
theorem test_ldiv_itself : accAfter (exec (.ldiv 0x30) (machine 1 none [(0x30, 0x30)])) = some 0x30 := by decide
theorem test_ldiv_out_of_range :
    faultOf (exec (.ldiv 0x30) (machine 1 none [(0x30, 0x100000)])) = some (.dataAddressOutOfRange 0x100000) := by decide
theorem test_stiv_itself : cellAfter 0x30 (exec (.stiv 0x30) (machine 1 (some 9) [(0x30, 0x30)])) = some 9 := by decide
theorem test_stiv_acc_before_range :
    faultOf (exec (.stiv 0x30) (machine 1 none [(0x30, -3)])) = some .accUnwritten := by decide
theorem test_add_no_24_bit_wrap :
    accAfter (exec (.add 0x20) (machine 1 (some 0xFFFFFF) [(0x20, 1)])) = some 0x1000000 := by decide
theorem test_add_above_range :
    faultOf (exec (.add 0x20) (machine 1 (some 0x7FFFFFFF) [(0x20, 1)])) = some (.hostRangeExceeded (2 ^ 31)) := by decide
theorem test_and_negative : accAfter (exec (.and 0x21) (machine 1 (some (-1)) [(0x21, -2)])) = some (-2) := by decide
theorem test_or : accAfter (exec (.or 0x22) (machine 1 (some 1) [(0x22, 0xF0)])) = some 0xF1 := by decide
theorem test_xor_to_negative :
    accAfter (exec (.xor 0x23) (machine 1 (some 0xFFFFFF) [(0x23, -1)])) = some (-0x1000000) := by decide
theorem test_eql_sentinel : accAfter (exec (.eql 0x24) (machine 1 (some 5) [(0x24, 5)])) = some (-1) := by decide
theorem test_eql_not_masked : accAfter (exec (.eql 0x24) (machine 1 (some (-1)) [(0x24, 0xFFFFFF)])) = some 0 := by decide
theorem test_not : accAfter (exec (.not 0xBEEF) (machine 1 (some 0xFFFFFF) [])) = some (-0x1000000) := by decide
theorem test_rar_word : accAfter (exec (.rar 0) (machine 1 (some 0xABCDEF) [])) = some 0xD5E6F7 := by decide
theorem test_rar_leak : accAfter (exec (.rar 0) (machine 1 (some (-2)) [])) = some 0xFFFFFF := by decide
theorem test_jmp : ipAfter (exec (.jmp 7) (machine 1 none [])) = some 7 := by decide
theorem test_jmn_taken : ipAfter (exec (.jmn 0x10) (machine 1 (some (-1)) [])) = some 0x10 := by decide
theorem test_jmn_bit_23_is_no_sign : ipAfter (exec (.jmn 0x10) (machine 1 (some 0x800000) [])) = some 1 := by decide
theorem test_hlt_own_address : ipAfter (step (machine 5 none [(5, 0xF00000)])) = some 5 := by decide
theorem test_out_logs :
    (nextOf (exec (.out 0x1E) (machine 1 none [(0x1E, -7)]))).map State.out = some [.log (.of (.output (-7)))] := rfl

/-! The engine: 95_test_vectors.md 2.6. -/

theorem test_ceiling :
    (nextOf (step { machine 3 none [(3, 0x000005)] with stepCount := 999 })).map
        (fun s => (s.haltReason, s.stepCount, s.ip, s.acc)) = some (.stepCeiling, 1000, 3, none) := by decide
theorem test_undefined_fetch_above_memory :
    (nextOf (step (machine 0x100000 none []))).map (fun s => (s.haltReason, s.ip)) =
      some (.undefinedFetch, 0x100000) := by decide
theorem test_decode_failure :
    (nextOf (step (machine 4 none [(4, 0xE00000)]))).map (fun s => (s.haltReason, s.ip, s.finalized, s.out)) =
      some (.invalidCommand 0xE, 5, false, [.log (.of (.invalidCommand 0xE))]) := rfl
theorem test_zero_padding_suppressed :
    (nextOf (step (machine 1 none [(0, 0), (1, 0)]))).map State.out = some [] := by decide
theorem test_zero_word_at_0_traced :
    (nextOf (step (machine 0 none [(0, 0), (1, 0)]))).map State.out =
      some [.trace (.of 0 .ldc 0 (some 0))] := rfl
theorem test_hlt_step_delivers :
    (nextOf (step { machine 1 (some 5) [(1, 0xF00000)] with stepCount := 1 })).map State.out =
      some [.trace (.of 1 .hlt 0 (some 5)), .log (.of (.summary 2 1)), .completion] := rfl
theorem test_fault_word_out_of_range :
    faultOf (step (machine 1 none [(1, -1)])) = some (.wordOutOfRange (-1)) := by decide
theorem test_reset_refused_without_start :
    refusalOf (resetWith Params.vectors State.reset.registered [1] none) = some .resetStartUndefined := by decide

/-! Witnesses: states and operands that meet the hypotheses of the statements, at the boundaries of their ranges. -/

/-- A running machine whose next step runs the word `w` at `a`. -/
def at' (a : Nat) (w : HostInt) : State := machine a (some 5) [(a, w)]

theorem witness_dispatches_jmp : Dispatches (at' 0xFFFFF 0x8FFFFF) 0x8FFFFF (.jmp 0xFFFFF) :=
  ⟨rfl, by decide, by decide, by decide⟩
theorem witness_dispatches_hlt : Dispatches (at' 0 0xF0FFFF) 0xF0FFFF (.hlt 0xFFFF) := ⟨rfl, by decide, by decide, by decide⟩
theorem witness_dispatches_out_at_own_address : Dispatches (at' 0xFFFFF 0xCFFFFF) 0xCFFFFF (.out 0xFFFFF) :=
  ⟨rfl, by decide, by decide, by decide⟩

theorem witness_CellOfEncodedInstructionDecodesToIt :
    (Instr.ldc 0xFFFFF).wellFormed = true ∧ (Instr.out 0).wellFormed = true ∧ (Instr.not 0xFFFF).wellFormed = true := by decide
theorem witness_EncodeThenDecodeGivesTheEntryBack :
    (0xFFFFF#32).toNat < (if Mnemonic.out.code < 0xF then 2 ^ 20 else 2 ^ 16) ∧
      (0xFFFF#32).toNat < (if Mnemonic.hlt.code < 0xF then 2 ^ 20 else 2 ^ 16) ∧ 0xF ≤ Mnemonic.hlt.code ∧
      Mnemonic.out.code < 0xF := by decide
theorem witness_DecodedWordEncodesBackToItself :
    decode 0x000000 = .ok (.ldc 0) ∧ decode 0xCFFFFF = .ok (.out 0xFFFFF) ∧ decode 0xF2FFFF = .ok (.rar 0xFFFF) := by decide
theorem witness_DecodeFailsExactlyOnUnboundWords :
    decode 0xD00000 = .error (.invalidCommand 0xD) ∧ decode 0xEFFFFF = .error (.invalidCommand 0xE) ∧
      decode 0xF30000 = .error (.invalidCommand 0xF3) ∧ decode 0xFFFFFF = .error (.invalidCommand 0xFF) := by decide
theorem witness_OnlyCellsInWord24AreDecoded :
    (-1 : HostInt).toInt < 0 ∧ 0xFFFFFF < (0x1000000 : HostInt).toInt ∧ 0 ≤ (0 : HostInt).toInt ∧
      (0xFFFFFF : HostInt).toInt ≤ 0xFFFFFF := by decide
theorem witness_ExtendedEncodeIsCodeShiftedOrMaskedOperand : 0xF ≤ Mnemonic.hlt.code ∧ 0xF ≤ Mnemonic.rar.code := by decide
theorem witness_PrimaryEncodeIsCodeShiftedOrMaskedOperand :
    Mnemonic.ldc.code < 0xF ∧ "FOO" ≠ "HALT" ∧ ∀ m ∈ Mnemonic.all, m.spelling ≠ "FOO" := by decide
theorem witness_ReverseLookupKeepsOneNamespace :
    primaryEntry 0xC = some .out ∧ Mnemonic.out.code = 0xC ∧ extendedEntry 2 = some .rar ∧ Mnemonic.rar.code = 0xF2 := by decide

theorem witness_StoredWordIsReadAndFetchedBack :
    memWrite State.reset 0xFFFFF (-1) = .ok (setMem [(0xFFFFF, -1)] State.reset) ∧
      memWrite State.reset 0 7 = .ok (setMem [(0, 7)] State.reset) := ⟨rfl, rfl⟩
theorem witness_StoreOverNextInstructionIsFetchedNext :
    Dispatches (at' 0xFFFFE 0x2FFFFF) 0x2FFFFF (.stv ((at' 0xFFFFE 0x2FFFFF).ip + 1)) ∧ (at' 0xFFFFE 0x2FFFFF).acc = some 5 :=
  ⟨⟨rfl, by decide, by decide, by decide⟩, rfl⟩
theorem witness_DefinedCellsStayDefined :
    (nextOf (stepWith true true (at' 0 0x200000))).isSome = true ∧ Memory.read (at' 0 0x200000).mem 0 ≠ none ∧
      (at' 0 0x200000).acc ≠ none := by decide

theorem witness_LdcLoadsItsOperand : (0 : Nat) < 2 ^ 20 ∧ (0xFFFFF : Nat) < 2 ^ 20 := by decide
theorem witness_LdvLoadsTheCell :
    Memory.read (machine 1 none [(0xFFFFF, -5)]).mem 0xFFFFF = some (-5) ∧
      Memory.read (machine 1 none []).mem 0xFFFFF = none := by decide
theorem witness_StvStoresTheAccumulator :
    (machine 1 (some (-1)) []).acc = some (-1) ∧ (machine 1 none []).acc = none := by decide
theorem witness_LdivLoadsThroughThePointer :
    Memory.read (machine 1 none [(0, -1)]).mem 0 = some (-1) ∧ (-1 : HostInt).toInt < 0 ∧
      0xFFFFF < (0x100000 : HostInt).toInt ∧ (0xFFFFF : HostInt).toInt = (0xFFFFF : Nat) ∧
      Memory.read (machine 1 none [(0, 0xFFFFF)]).mem 0xFFFFF = none ∧
      Memory.read (machine 1 none [(0, 0xFFFFF), (0xFFFFF, 8)]).mem 0xFFFFF = some 8 ∧
      Memory.read (machine 1 none []).mem 0 = none := by decide
theorem witness_StivStoresThroughThePointer :
    Memory.read (machine 1 (some 9) [(0, -1)]).mem 0 = some (-1) ∧ (machine 1 (some 9) [(0, -1)]).acc = some 9 ∧
      (-1 : HostInt).toInt < 0 ∧ 0xFFFFF < (0x100000 : HostInt).toInt ∧
      (0xFFFFF : HostInt).toInt = (0xFFFFF : Nat) ∧ (0 : HostInt).toInt = (0 : Nat) := by decide

/-- The operand read and the accumulator written, as the two-operand statements ask. -/
theorem witness_two_operand_statements :
    Memory.read (machine 1 (some 5) [(0xFFFFF, 7)]).mem 0xFFFFF = some 7 ∧
      (machine 1 (some 5) [(0xFFFFF, 7)]).acc = some 5 ∧ Memory.read (machine 1 none []).mem 0 = none ∧
      Memory.read (machine 1 none [(0, 7)]).mem 0 ≠ none ∧ (machine 1 none [(0, 7)]).acc = none := by decide
theorem witness_AddIsTheExactSumOrFaults :
    (0x7FFFFFFF : HostInt).toInt + (0 : HostInt).toInt ≤ 2 ^ 31 - 1 ∧
      2 ^ 31 - 1 < (0x7FFFFFFF : HostInt).toInt + (1 : HostInt).toInt ∧
      -2 ^ 31 ≤ (0x80000000 : HostInt).toInt + (0 : HostInt).toInt ∧
      (0x80000000 : HostInt).toInt + (-1 : HostInt).toInt < -2 ^ 31 := by decide
theorem witness_one_operand_statements : (machine 1 (some 0) []).acc = some 0 ∧ (machine 1 none []).acc = none := by decide
theorem witness_TwentyFourRotationsGiveTheWordBack : (0xFFFFFF : HostInt).toNat < 2 ^ 24 := by decide

/-- After a jump to a cell without a word, below the ceiling, and at it. -/
theorem witness_JmpGoesToItsTarget :
    (nextOf (step (at' 0 0x800005))).map (fun t => (decide (t.stepCount + 1 < t.params.stepCeiling), fetch t 5)) =
        some (true, none) ∧
      (nextOf (step { at' 0 0x800005 with stepCount := 998 })).map
        (fun t => decide (t.params.stepCeiling ≤ t.stepCount + 1)) = some true := by decide
theorem witness_JmnFollowsTheSign :
    (machine 1 (some 0x80000000) []).acc.map BitVec.toInt = some (-2 ^ 31) ∧
      (machine 1 (some 0) []).acc.map BitVec.toInt = some 0 ∧ (machine 1 none []).acc = none := by decide
theorem witness_OutSendsTheCellOnTheLog :
    Memory.read (machine 1 none [(0, -7)]).mem 0 = some (-7) ∧ Memory.read (machine 1 none []).mem 0 = none := by decide

theorem witness_AccumulatorInstructionsChangeOnlyAcc :
    writesAcc (.ldiv 0) = true ∧ (nextOf (exec (.ldiv 0) (machine 1 none [(0, 0)]))).isSome = true ∧
      writesAcc (.add 0) = true ∧ (nextOf (exec (.add 0) (machine 1 (some 1) [(0, 0)]))).isSome = true := by decide
theorem witness_StoresChangeOnlyTheirCell :
    storeAddress (.stv 0xFFFFF) State.reset = some 0xFFFFF ∧
      (nextOf (exec (.stv 0xFFFFF) (machine 1 (some 1) []))).isSome = true ∧
      storeAddress (.stiv 0) (machine 1 (some 1) [(0, 0xFFFFF)]) = some 0xFFFFF ∧
      (nextOf (exec (.stiv 0) (machine 1 (some 1) [(0, 0xFFFFF)]))).isSome = true := by decide
theorem witness_ControlAndOutputLeaveAccAndMemory :
    (nextOf (exec (.jmn 0) (machine 1 (some (-1)) []))).isSome = true ∧
      (nextOf (exec (.jmn 0) (machine 1 (some 0) []))).isSome = true ∧
      (nextOf (exec (.hlt 0) (machine 0 none []))).isSome = true ∧
      (nextOf (exec (.out 0) (machine 1 none [(0, 1)]))).isSome = true ∧ writesAcc (.out 0) = false ∧
      storeAddress (.out 0) State.reset = none := by decide

/-- A dispatched step whose action answers a next state, and one whose action faults. -/
theorem witness_StepRunsTheDecodedInstruction :
    (nextOf (exec (.jmp 0xFFFFF) (actionState (at' 0xFFFFF 0x8FFFFF)))).isSome = true ∧
      faultOf (exec (.ldv 7) (actionState (at' 0 0x100007))) = some (.undefinedDataRead 7) := by decide
theorem witness_EachInstructionLeavesIpAsTheRuleSays :
    (nextOf (stepWith false false (at' 0xFFFFF 0x8FFFFF))).isSome = true ∧
      (nextOf (stepWith false false (at' 0 0xF0FFFF))).isSome = true ∧
      (nextOf (stepWith false false (at' 0xFFFFF 0xCFFFFF))).isSome = true := by decide
theorem witness_CeilingTripHaltsWithoutExecuting :
    State.reset.fault = none ∧ ({ State.reset with stepCount := 999 } : State).params.stepCeiling ≤ 999 + 1 := by decide
theorem witness_UndefinedFetchHaltsGracefully :
    State.reset.stepCount + 1 < State.reset.params.stepCeiling ∧ Memory.read State.reset.mem State.reset.ip = none ∧
      addrSpace ≤ (machine 0x100000 none []).ip ∧
      ({ State.reset with params := { Params.reset with undefFetchAdvancesIp := true } } : State).params.undefFetchAdvancesIp =
        true := by decide
theorem witness_DecodeFailureHaltsWithItsCode :
    fetch (at' 0xFFFFF 0xFFFFFF) 0xFFFFF = some 0xFFFFFF ∧ decodeCell 0xFFFFFF = .error (.invalidCommand 0xFF) ∧
      (at' 0xFFFFF 0xFFFFFF).stepCount + 1 < (at' 0xFFFFF 0xFFFFFF).params.stepCeiling := by decide
theorem witness_FaultsComeAfterTheCeilingAndTheFetch :
    faultOf (stepWith false false (at' 0 0x1000000)) = some (.wordOutOfRange 0x1000000) ∧
      faultOf (stepWith false false (at' 0 0x100007)) = some (.undefinedDataRead 7) := by decide
theorem witness_EachFaultHasItsCauseAndInstructions :
    faultOf (exec (.jmn 0) (machine 1 none [])) = some .accUnwritten ∧
      faultOf (exec (.out 0xFFFFF) State.reset) = some (.undefinedDataRead 0xFFFFF) ∧
      faultOf (exec (.stiv 0) (machine 1 (some 1) [(0, 0x100000)])) = some (.dataAddressOutOfRange 0x100000) ∧
      faultOf (exec (.add 0) (machine 1 (some 0x80000000) [(0, -1)])) = some (.hostRangeExceeded (-2 ^ 31 - 1)) := by decide

/-- Steps of a running machine that leave it running, and each of the four events, with a cancellation. -/
theorem witness_RunningMachineHaltsOnExactlyFourEvents :
    (nextOf (stepWith true true (at' 0 0x000001))).map State.running = some true ∧
      (nextOf (stepWith true true { at' 0 0 with stepCount := 999 })).map State.running = some false ∧
      (nextOf (stepWith true true (machine 0x100000 none []))).map State.running = some false ∧
      (nextOf (stepWith true true (at' 0 0xD00000))).map State.running = some false ∧
      (nextOf (stepWith true true (at' 0 0xF00000))).map State.running = some false ∧
      (nextOf (cancel (at' 0 0))).map State.haltReason = some .cancelled := by decide
/-- Every statement over a step that answers a next state: `EveryStepCountsOne`, `ChannelsOnlyGrow`, `OnlyAStartSetsRunning`,
`EveryStepKeepsTheInvariant`. -/
theorem witness_step_statements :
    (nextOf (stepWith false false (at' 0 0x000001))).map State.running = some true ∧
      (nextOf (step (at' 0 0x000001))).isSome = true ∧ HostOp.starts .tick = false ∧
      (afterOp .tick { at' 0 0x000001 with scheduled := true }).running = true := by decide
theorem witness_SilentStepsAreNotTraced :
    (nextOf (stepWith true false (at' 0 0x000001))).isSome = true ∧ (nextOf (run (at' 0 0xF00000))).isSome = true ∧
      (nextOf (stepWith false false { at' 0 0x000001 with scheduled := true })).isSome = true := by decide

theorem witness_ActionsSeeOnlyTheProgramState :
    sameProgramState State.reset { State.reset with running := true, stepCount := 7, scheduled := true } := ⟨rfl, rfl, rfl⟩
/-- Two pools whose machines at 0 agree in what the host reads, and differ in what was delivered and in the flags left. -/
theorem witness_SeparateMachinesShareNothing :
    (1 : Nat) ≠ 0 ∧ [at' 0 0xF00000, State.reset][0]? = some (at' 0 0xF00000) ∧
      hostView { at' 0 0xF00000 with out := [.completion], input := { silent := true, atomic := true } } =
        hostView (at' 0 0xF00000) := ⟨by decide, rfl, rfl⟩
theorem witness_ResetCreatesTheImageStateOrRefuses :
    (0xFFFFF < 2 ^ 20) ∧ [2 ^ 31 - 1, -2 ^ 31].length ≤ 2 ^ 20 ∧
      (∀ w ∈ [2 ^ 31 - 1, -2 ^ 31], -2 ^ 31 ≤ (w : Int) ∧ w ≤ 2 ^ 31 - 1) ∧ ¬(0x100000 < 2 ^ 20) := by decide
/-- A state with a fault, and one without. -/
theorem witness_fault_statements :
    State.reset.fault = none ∧ ({ State.reset with fault := some .accUnwritten } : State).fault = some .accUnwritten ∧
      faultOf (stepWith false false (at' 0 0x1000000)) = some (.wordOutOfRange 0x1000000) := by decide
theorem witness_TickStepsOnlyWhileScheduledAndRunning :
    State.reset.scheduled = false ∧ ({ State.reset with scheduled := true } : State).running = false ∧
      (nextOf (stepWith false false { at' 0 0x000001 with scheduled := true })).isSome = true ∧
      faultOf (stepWith false false { at' 0 0x100007 with scheduled := true }) = some (.undefinedDataRead 7) := by decide
theorem witness_CompletionIsNotifiedAtMostOncePerRun :
    (∀ op ∈ [HostOp.step true false, .tick, .cancel], op.starts = false) ∧
      ({ State.reset with finalized := true } : State).finalized = true := by decide
theorem witness_RunEndsWithinTheStepBudget :
    State.reset.fault = none ∧ (nextOf (start State.reset)).isSome = true ∧
      max 1 (State.reset.params.stepCeiling - State.reset.stepCount) ≤ 999 + 1 := by decide

/-- A state that meets the invariant and is no reset state. -/
theorem witness_EveryStepKeepsTheInvariant : (at' 0xFFFFF 0x8FFFFF).Inv :=
  ⟨by decide, fun _ => by decide, fun _ => rfl, fun _ => rfl, fun _ h => by cases h⟩
theorem witness_EveryHostOperationKeepsTheInvariant :
    ∃ t, resetWith Params.vectors State.reset.registered [2 ^ 31 - 1, -2 ^ 31] (some 0xFFFFF) = .next t := ⟨_, rfl⟩
theorem witness_EveryReachableMachineMeetsTheInvariant :
    ∃ s, resetWith Params.vectors State.reset.registered [5, 0xF00000] (some 0) = .next s ∧ Reachable s ∧
      Reachable (afterOp (.step false false) s) :=
  ⟨_, rfl, .reset (p := Params.vectors) (ch := State.reset.registered) (image := [5, 0xF00000]) (start := some 0) rfl,
    .op _ (.reset (p := Params.vectors) (ch := State.reset.registered) (image := [5, 0xF00000]) (start := some 0) rfl)⟩

end Sys2Proof.Tests
end

section
/-! The run flag (10_state.md R25): no end of a step and no host operation of one step sets it. -/

namespace Sys2Proof.Machine

variable {silent atomic : Bool} {s t : State}

@[simp] theorem tripCeiling_running (atomic : Bool) (s : State) : (tripCeiling atomic s).running = false := by
  simp [tripCeiling]

@[simp] theorem haltUndefinedFetch_running (atomic : Bool) (s : State) :
    (haltUndefinedFetch atomic s).running = false := by
  simp [haltUndefinedFetch]

@[simp] theorem haltInvalidCommand_running (code : Nat) (s : State) : (haltInvalidCommand code s).running = false := by
  simp [haltInvalidCommand]

@[simp] theorem unscheduleIfHalted_running (s : State) : (unscheduleIfHalted s).running = s.running := by
  unfold unscheduleIfHalted; split <;> simp

@[simp] theorem haltIfRunning_running (s : State) : (haltIfRunning s).running = false := by
  unfold haltIfRunning; split <;> simp_all

/-- An action leaves the run flag or, as HLT, clears it. -/
theorem ActionEffect.running_of_running (h : ActionEffect s t) (ht : t.running = true) : s.running = true := by
  cases h with
  | acc x => exact ht
  | jump a ha => exact ht
  | none => exact ht
  | store a x ha => exact ht
  | halt => simp at ht
  | log l => exact ht

/-- Only a step that ends in an action can leave the machine running; every other end halts. -/
theorem StepEnd.running_of_running (h : StepEnd silent atomic s t) (ht : t.running = true) : s.running = true := by
  cases h with
  | ceiling hc => simp at ht
  | undefinedFetch hc hf => simp at ht
  | invalidCommand hc hf hd => simp at ht
  | action hc hf hd he => exact (exec_effect he).running_of_running (by simpa using ht)

theorem stepWith_running_of_running (h : stepWith silent atomic s = .next t) (ht : t.running = true) :
    s.running = true :=
  (stepWith_end h).2.running_of_running ht

/-- The inversion of a tick (40_step_engine.md R97): idle, a step while running, or the end of the schedule. -/
theorem tick_end (h : tick s = .next t) :
    t = s ∨ (∃ u, stepWith false false s = .next u ∧ t = unscheduleIfHalted u) ∨ t = unscheduleIfHalted s := by
  unfold tick at h
  split at h
  · cases h
  · split at h
    · unfold tickRunning at h
      split at h
      · split at h
        · rename_i u hu
          cases h; exact .inr (.inl ⟨u, hu, rfl⟩)
        · cases h
        · cases h
      · cases h; exact .inr (.inr rfl)
    · cases h; exact .inl rfl

theorem tick_running_of_running (h : tick s = .next t) (ht : t.running = true) : s.running = true := by
  obtain rfl | ⟨u, hu, rfl⟩ | rfl := tick_end h
  · exact ht
  · exact stepWith_running_of_running hu (by simpa using ht)
  · simpa using ht

/-- A cancellation leaves the machine halted (R98). -/
theorem cancel_running (h : cancel s = .next t) : t.running = false := by
  unfold cancel at h
  split at h
  · cases h
  · cases h; simp

/-- A fault and a refusal leave the run flag, so the machine after an operation runs only as its next state does (R156). -/
theorem settle_running_of_running {o : Host.Outcome State Fault Refusal}
    (ho : ∀ t, o = .next t → t.running = true → s.running = true) (h : (settle s o).running = true) :
    s.running = true := by
  cases o with
  | next t => exact ho t rfl h
  | fault f => exact h
  | refused r => exact h

/-- The machine after an operation that is no start of execution (R95 to R97) runs only if it ran before. -/
theorem afterOp_running_of_running {op : HostOp} (hop : op.starts = false) (h : (afterOp op s).running = true) :
    s.running = true := by
  cases op with
  | start => cases hop
  | run => cases hop
  | startCooperative => cases hop
  | step silent atomic => exact settle_running_of_running (fun _ => stepWith_running_of_running) h
  | tick => exact settle_running_of_running (fun _ => tick_running_of_running) h
  | cancel => exact settle_running_of_running (fun _ ht hr => by simp [cancel_running ht] at hr) h

/-- Settles O41: steps by the inversion of a step, host operations by cases on the operation. -/
theorem onlyAStartSetsRunning : Obligations.OnlyAStartSetsRunning :=
  ⟨fun _ _ _ _ => stepWith_running_of_running, fun _ _ => afterOp_running_of_running⟩

end Sys2Proof.Machine
end

section
/-! Isolation (20_memory.md R54): no operation reads what the channels delivered before or the flags left for `step`.  Said as
equations: every operation commutes with `withPast`, which changes just those two fields of the model's own (logs 4 and 5). -/

namespace Sys2Proof.Machine

/-- `s` with the deliveries `past` before its own, and `flags` left for `step`. -/
def withPast (past : List Event) (flags : StepInput) (s : State) : State :=
  { s with out := past ++ s.out, input := flags }

/-- `s` with nothing delivered and no flag left for `step`. -/
def withoutPast (s : State) : State := { s with out := [], input := { silent := false, atomic := false } }

/-- An outcome with `g` applied to its next state. -/
def mapNext (g : State → State) : Host.Outcome State Fault Refusal → Host.Outcome State Fault Refusal
  | .next s => .next (g s)
  | .fault f => .fault f
  | .refused r => .refused r

@[simp] theorem mapNext_next (g : State → State) (s : State) : mapNext g (.next s) = .next (g s) := rfl
@[simp] theorem mapNext_fault (g : State → State) (f : Fault) : mapNext g (.fault f) = .fault f := rfl
@[simp] theorem mapNext_refused (g : State → State) (r : Refusal) : mapNext g (.refused r) = .refused r := rfl

variable (past : List Event) (flags : StepInput) (s : State)

theorem withPast_withoutPast : withPast s.out s.input (withoutPast s) = s := by
  simp [withPast, withoutPast]

/-- What the host reads, the parameters and the registered channels are all of a state but its past. -/
theorem withoutPast_congr {s t : State} (hv : hostView t = hostView s) (hp : t.params = s.params)
    (hr : t.registered = s.registered) : withoutPast t = withoutPast s := by
  cases s; cases t
  simp_all [hostView, withoutPast]

/-! What `withPast` leaves. -/

@[simp] theorem withPast_ip : (withPast past flags s).ip = s.ip := rfl
@[simp] theorem withPast_running : (withPast past flags s).running = s.running := rfl
@[simp] theorem withPast_stepCount : (withPast past flags s).stepCount = s.stepCount := rfl
@[simp] theorem withPast_finalized : (withPast past flags s).finalized = s.finalized := rfl
@[simp] theorem withPast_scheduled : (withPast past flags s).scheduled = s.scheduled := rfl
@[simp] theorem withPast_fault : (withPast past flags s).fault = s.fault := rfl
@[simp] theorem withPast_out : (withPast past flags s).out = past ++ s.out := rfl
@[simp] theorem hostView_withPast : hostView (withPast past flags s) = hostView s := rfl
@[simp] theorem readAcc_withPast : readAcc (withPast past flags s) = readAcc s := rfl
@[simp] theorem memRead_withPast (a : Int) : memRead (withPast past flags s) a = memRead s a := rfl
@[simp] theorem readDirect_withPast (v : Nat) : readDirect v (withPast past flags s) = readDirect v s := rfl
@[simp] theorem fetch_withPast (a : Nat) : fetch (withPast past flags s) a = fetch s a := rfl
@[simp] theorem delivered_withPast (e : Event) : delivered (withPast past flags s) e = delivered s e := rfl
@[simp] theorem ceilingReached_withPast : ceilingReached (withPast past flags s) = ceilingReached s := rfl
@[simp] theorem runBound_withPast : runBound (withPast past flags s) = runBound s := rfl
@[simp] theorem ipAfterUndefinedFetch_withPast :
    ipAfterUndefinedFetch (withPast past flags s) = ipAfterUndefinedFetch s := rfl
@[simp] theorem zeroPadding_withPast (a : Nat) (w : HostInt) :
    zeroPadding a w (withPast past flags s) = zeroPadding a w s := rfl

/-! The updates of the state commute with `withPast`. -/

@[simp] theorem setAcc_withPast (v : HostInt) : setAcc v (withPast past flags s) = withPast past flags (setAcc v s) := rfl
@[simp] theorem setIp_withPast (v : Nat) : setIp v (withPast past flags s) = withPast past flags (setIp v s) := rfl
@[simp] theorem halt_withPast (r : HaltReason) : halt r (withPast past flags s) = withPast past flags (halt r s) := rfl
@[simp] theorem countStep_withPast : countStep (withPast past flags s) = withPast past flags (countStep s) := rfl
@[simp] theorem setFinalized_withPast (b : Bool) :
    setFinalized b (withPast past flags s) = withPast past flags (setFinalized b s) := rfl
@[simp] theorem setScheduled_withPast (b : Bool) :
    setScheduled b (withPast past flags s) = withPast past flags (setScheduled b s) := rfl
@[simp] theorem recordFault_withPast (f : Fault) :
    recordFault f (withPast past flags s) = withPast past flags (recordFault f s) := rfl

/-- A delivery goes behind the earlier ones, whatever they are. -/
@[simp] theorem emit_withPast (e : Event) : emit e (withPast past flags s) = withPast past flags (emit e s) := by
  simp only [emit, delivered_withPast]
  simp [withPast]

@[simp] theorem emitTrace_withPast (a : Nat) (i : Instr) :
    emitTrace a i (withPast past flags s) = withPast past flags (emitTrace a i s) :=
  emit_withPast ..

@[simp] theorem memWrite_withPast (a : Int) (v : HostInt) :
    memWrite (withPast past flags s) a v = withPast past flags <$> memWrite s a v := by
  unfold memWrite; split <;> rfl

@[simp] theorem finalize_withPast : finalize (withPast past flags s) = withPast past flags (finalize s) := by
  cases hf : s.finalized <;> simp [finalize, hf]

@[simp] theorem finalizeUnless_withPast (atomic : Bool) :
    finalizeUnless atomic (withPast past flags s) = withPast past flags (finalizeUnless atomic s) := by
  unfold finalizeUnless; split <;> simp

/-! So do the actions and the step. -/

/-- A change of the state an action's primitives end in is that change of its outcome. -/
theorem finish_map (g : State → State) (x : Except Fault State) : finish (g <$> x) = mapNext g (finish x) := by
  cases x <;> rfl

theorem accWithMemory_withPast (g : HostInt → HostInt → Except Fault HostInt) (v : Nat) :
    accWithMemory g v (withPast past flags s) = mapNext (withPast past flags) (accWithMemory g v s) := by
  simp [accWithMemory, ← finish_map]

theorem accAlone_withPast (g : HostInt → HostInt) :
    accAlone g (withPast past flags s) = mapNext (withPast past flags) (accAlone g s) := by
  simp [accAlone, ← finish_map]

theorem execJmn_withPast (v : Nat) :
    execJmn v (withPast past flags s) = mapNext (withPast past flags) (execJmn v s) := by
  simp [execJmn, ← finish_map, apply_ite (withPast past flags)]

/-- No action reads its past: it does the same, and delivers the same (R33). -/
@[simp] theorem exec_withPast (i : Instr) :
    exec i (withPast past flags s) = mapNext (withPast past flags) (exec i s) := by
  cases i with
  | ldc v => rfl
  | ldv v => simp [exec, execLdv, ← finish_map]
  | stv v => simp [exec, execStv, ← finish_map]
  | add v => exact accWithMemory_withPast ..
  | and v => exact accWithMemory_withPast ..
  | or v => exact accWithMemory_withPast ..
  | xor v => exact accWithMemory_withPast ..
  | eql v => exact accWithMemory_withPast ..
  | jmp v => rfl
  | jmn v => exact execJmn_withPast ..
  | ldiv v => simp [exec, execLdiv, ← finish_map]
  | stiv v => simp [exec, execStiv, ← finish_map]
  | out v => simp [exec, execOut, ← finish_map]
  | hlt v => rfl
  | not v => exact accAlone_withPast ..
  | rar v => exact accAlone_withPast ..

@[simp] theorem traceUnless_withPast (silent : Bool) (a : Nat) (w : HostInt) (i : Instr) :
    traceUnless silent a w i (withPast past flags s) = withPast past flags (traceUnless silent a w i s) := by
  cases ht : silent || zeroPadding a w s <;> simp [traceUnless, ht]

@[simp] theorem finalizeIfHalted_withPast (atomic : Bool) :
    finalizeIfHalted atomic (withPast past flags s) = withPast past flags (finalizeIfHalted atomic s) := by
  cases hr : s.running <;> simp [finalizeIfHalted, hr]

theorem dispatch_withPast (silent atomic : Bool) (w : HostInt) (i : Instr) :
    dispatch silent atomic w i (withPast past flags s) =
      mapNext (withPast past flags) (dispatch silent atomic w i s) := by
  simp only [dispatch, withPast_ip, setIp_withPast, exec_withPast]
  cases exec i (setIp (s.ip + 1) s) <;> simp [afterAction]

theorem runWord_withPast (silent atomic : Bool) (w : HostInt) :
    runWord silent atomic w (withPast past flags s) = mapNext (withPast past flags) (runWord silent atomic w s) := by
  unfold runWord
  split
  · rfl
  · simp [haltInvalidCommand]
  · exact dispatch_withPast ..

theorem fetchAndRun_withPast (silent atomic : Bool) :
    fetchAndRun silent atomic (withPast past flags s) =
      mapNext (withPast past flags) (fetchAndRun silent atomic s) := by
  simp only [fetchAndRun, withPast_ip, fetch_withPast]
  cases fetch s s.ip with
  | none => simp [haltUndefinedFetch]
  | some w => exact runWord_withPast ..

theorem checkAndRun_withPast (silent atomic : Bool) :
    checkAndRun silent atomic (withPast past flags s) =
      mapNext (withPast past flags) (checkAndRun silent atomic s) := by
  cases hc : ceilingReached s with
  | true => simp [checkAndRun, hc, tripCeiling]
  | false => simpa [checkAndRun, hc] using fetchAndRun_withPast ..

/-- No step reads its past (R54). -/
@[simp] theorem stepWith_withPast (silent atomic : Bool) :
    stepWith silent atomic (withPast past flags s) = mapNext (withPast past flags) (stepWith silent atomic s) := by
  simp only [stepWith, withPast_fault, countStep_withPast]
  cases s.fault with
  | some f => rfl
  | none => exact checkAndRun_withPast ..

/-! And so do the host's operations. -/

@[simp] theorem start_withPast :
    start (withPast past flags s) = mapNext (withPast past flags) (start s) := by
  simp only [start, withPast_fault]; cases s.fault <;> rfl

theorem startCooperative_withPast :
    startCooperative (withPast past flags s) = mapNext (withPast past flags) (startCooperative s) := by
  simp only [startCooperative, start_withPast]; cases start s <;> simp

@[simp] theorem unscheduleIfHalted_withPast :
    unscheduleIfHalted (withPast past flags s) = withPast past flags (unscheduleIfHalted s) := by
  cases hr : s.running <;> simp [unscheduleIfHalted, hr]

theorem tickRunning_withPast :
    tickRunning (withPast past flags s) = mapNext (withPast past flags) (tickRunning s) := by
  cases hr : s.running with
  | true =>
    simp only [tickRunning, withPast_running, hr, if_true, stepWith_withPast]
    cases stepWith false false s <;> simp
  | false => simp [tickRunning, hr]

theorem tick_withPast : tick (withPast past flags s) = mapNext (withPast past flags) (tick s) := by
  simp only [tick, withPast_fault]
  cases s.fault with
  | some f => rfl
  | none => cases hs : s.scheduled <;> simp [hs, tickRunning_withPast]

@[simp] theorem haltIfRunning_withPast :
    haltIfRunning (withPast past flags s) = withPast past flags (haltIfRunning s) := by
  cases hr : s.running <;> simp [haltIfRunning, hr]

theorem cancel_withPast : cancel (withPast past flags s) = mapNext (withPast past flags) (cancel s) := by
  simp only [cancel, withPast_fault]; cases s.fault <;> simp

@[simp] theorem settle_withPast (o : Host.Outcome State Fault Refusal) :
    settle (withPast past flags s) (mapNext (withPast past flags) o) = withPast past flags (settle s o) := by
  cases o <;> rfl

@[simp] theorem afterRunLoop_withPast (n : Nat) :
    afterRunLoop n (withPast past flags s) = withPast past flags (afterRunLoop n s) := by
  induction n generalizing s with
  | zero => rfl
  | succ n ih =>
    simp only [afterRunLoop, withPast_running, withPast_fault, stepWith_withPast, settle_withPast, ih]
    split <;> rfl

theorem afterRun_withPast : afterRun (withPast past flags s) = withPast past flags (afterRun s) := by
  simp only [afterRun, start_withPast]; cases start s <;> simp

/-- No host operation reads the past of the machine it is done on: it leaves the same machine behind the same past (R54). -/
theorem afterOp_withPast (op : HostOp) :
    afterOp op (withPast past flags s) = withPast past flags (afterOp op s) := by
  cases op with
  | start => simp [afterOp]
  | step silent atomic => simp [afterOp]
  | run => exact afterRun_withPast ..
  | startCooperative => simp [afterOp, startCooperative_withPast]
  | tick => simp [afterOp, tick_withPast]
  | cancel => simp [afterOp, cancel_withPast]

/-- An operation on a machine is the operation on it without its past, put behind that past. -/
theorem afterOp_eq_withPast (op : HostOp) : afterOp op s = withPast s.out s.input (afterOp op (withoutPast s)) := by
  rw [← afterOp_withPast, withPast_withoutPast]

/-- Settles O48: an operation changes one entry of the list, and there commutes with `withPast`; machines that agree as the
statement says are one machine behind two pasts, and the deliveries are that machine's. -/
theorem separateMachinesShareNothing : Obligations.SeparateMachinesShareNothing := by
  intro n op machines others
  refine ⟨fun k hk => by simp [performAt, hk.symm], fun s t hs ht hv hp hr => ?_⟩
  have hback : withoutPast t = withoutPast s := withoutPast_congr hv hp hr
  have hs' := afterOp_eq_withPast s op
  have ht' := hback ▸ afterOp_eq_withPast t op
  refine ⟨afterOp op s, afterOp op t, (afterOp op (withoutPast s)).out, by simp [performAt, hs],
    by simp [performAt, ht], ?_, ?_, ?_⟩
  · rw [hs', ht', hostView_withPast, hostView_withPast]
  · rw [hs', withPast_out]
  · rw [ht', withPast_out]

end Sys2Proof.Machine
end

section
/-! The codes of the table (30_encoding.md R71): the two catalogs and the reverse lookup are each other's inverse. -/

namespace Sys2Proof

/-- The codes in use: the bound primary opcodes, and 0xF0 plus the bound sub-opcodes (R65, R66, R71). -/
theorem code_range (m : Mnemonic) : m.code ≤ 0xC ∨ 0xF0 ≤ m.code ∧ m.code ≤ 0xF2 := by cases m <;> decide

theorem primaryEntry_eq_some_iff {op : Nat} {m : Mnemonic} : primaryEntry op = some m ↔ m.code = op ∧ op ≤ 0xC := by
  constructor
  · intro h
    unfold primaryEntry at h
    split at h <;> cases h <;> decide
  · rintro ⟨rfl, hop⟩
    have hcode := entryOfCode_code m
    rwa [entryOfCode, if_pos (by omega)] at hcode

theorem extendedEntry_eq_some_iff {sub : Nat} {m : Mnemonic} : extendedEntry sub = some m ↔ m.code = 0xF0 + sub := by
  constructor
  · intro h
    unfold extendedEntry at h
    split at h <;> cases h <;> rfl
  · intro h
    have hcode := entryOfCode_code m
    rwa [entryOfCode, h, if_neg (by omega), Nat.add_sub_cancel_left] at hcode

/-- A code names one catalog entry, so no two mnemonics share one (R71). -/
theorem code_injective {m n : Mnemonic} (h : m.code = n.code) : m = n := by
  have hm := entryOfCode_code m
  rw [h, entryOfCode_code n] at hm
  exact (Option.some.inj hm).symm

/-- Settles O9: both catalogs by their `↔`, and one namespace since a code names its entry. -/
theorem reverseLookupKeepsOneNamespace : Obligations.ReverseLookupKeepsOneNamespace :=
  ⟨fun _ _ => primaryEntry_eq_some_iff, fun _ _ => extendedEntry_eq_some_iff, fun _ _ => code_injective⟩

end Sys2Proof
end

section
/-! The encoder and the decoder (30_encoding.md R63, R72, R73): in both formats a word is its code above its operand field, and
both functions say just that. -/

namespace Sys2Proof

theorem operandBits_primary {m : Mnemonic} (h : m.code < 0xF) : operandBits m = 20 := if_pos h

theorem operandBits_extended {m : Mnemonic} (h : 0xF ≤ m.code) : operandBits m = 16 := if_neg (by omega)

/-- A code shifted above an operand masked to the low `n` bits: the sum of the two, as the code leaves those bits clear. -/
theorem shiftLeft_or_masked_toNat {c n : Nat} (x mask : HostInt) (hmask : mask.toNat = 2 ^ n - 1) (hn : n < 24)
    (hc : c * 2 ^ n < 2 ^ 24) :
    (BitVec.ofNat 24 c <<< n ||| (x &&& mask).setWidth 24).toNat = c * 2 ^ n + x.toNat % 2 ^ n := by
  have hfield : x.toNat % 2 ^ n < 2 ^ n := Nat.mod_lt _ (by positivity)
  have hpow : 2 ^ n < 2 ^ 24 := Nat.pow_lt_pow_right (by decide) hn
  have hcode : c < 2 ^ 24 := lt_of_le_of_lt (Nat.le_mul_of_pos_right c (by positivity)) hc
  simp only [BitVec.toNat_or, BitVec.toNat_shiftLeft, BitVec.toNat_ofNat, BitVec.toNat_setWidth, BitVec.toNat_and, hmask,
    Nat.and_two_pow_sub_one_eq_mod, Nat.shiftLeft_eq, Nat.mod_eq_of_lt hcode, Nat.mod_eq_of_lt hc,
    Nat.mod_eq_of_lt (hfield.trans hpow)]
  rw [← Nat.shiftLeft_eq, Nat.shiftLeft_add_eq_or_of_lt hfield]

/-- What encode gives, in both formats (R72, R73). -/
theorem encode_toNat (m : Mnemonic) (x : HostInt) :
    (m.encode x).toNat = m.code * 2 ^ operandBits m + x.toNat % 2 ^ operandBits m := by
  have hrange := code_range m
  by_cases hp : m.code < 0xF
  · rw [operandBits_primary hp, Mnemonic.encode, if_pos hp]
    exact shiftLeft_or_masked_toNat x _ rfl (by decide) (by omega)
  · rw [operandBits_extended (by omega), Mnemonic.encode, if_neg hp]
    exact shiftLeft_or_masked_toNat x _ rfl (by decide) (by omega)

theorem encode_toNat_primary {m : Mnemonic} (h : m.code < 0xF) (x : HostInt) :
    (m.encode x).toNat = m.code * 2 ^ 20 + x.toNat % 2 ^ 20 := by
  rw [encode_toNat, operandBits_primary h]

theorem encode_toNat_extended {m : Mnemonic} (h : 0xF ≤ m.code) (x : HostInt) :
    (m.encode x).toNat = m.code * 2 ^ 16 + x.toNat % 2 ^ 16 := by
  rw [encode_toNat, operandBits_extended h]

/-- Every instruction is made of an entry and an operand. -/
theorem exists_toInstr (i : Instr) : ∃ m v, i = Mnemonic.toInstr m v :=
  ⟨i.mnemonic, i.operand, by cases i <;> rfl⟩

theorem toInstr_wellFormed_iff {m : Mnemonic} {v : Nat} : (m.toInstr v).wellFormed = true ↔ v < 2 ^ operandBits m := by
  cases m <;> exact decide_eq_true_iff

/-- A well-formed instruction with the word `w`: `w` is its code above its operand, which fits its field. -/
theorem toInstr_wellFormed_and_encode_iff {m : Mnemonic} {v : Nat} {w : Word24} :
    (m.toInstr v).wellFormed = true ∧ (m.toInstr v).encode = w ↔
      v < 2 ^ operandBits m ∧ w.toNat = m.code * 2 ^ operandBits m + v := by
  rw [toInstr_wellFormed_iff]
  refine and_congr_right fun hv => ?_
  have hbits : 2 ^ operandBits m ≤ 2 ^ 32 :=
    Nat.pow_le_pow_right (by decide) (by unfold operandBits; split <;> decide)
  have hencode : (m.toInstr v).encode.toNat = m.code * 2 ^ operandBits m + v := by
    rw [Instr.encode, toInstr_mnemonic, toInstr_operand, encode_toNat, BitVec.toNat_ofNat,
      Nat.mod_eq_of_lt (hv.trans_le hbits), Nat.mod_eq_of_lt hv]
  rw [← BitVec.toNat_inj, hencode, eq_comm]

/-- A word with a primary code above a 20-bit operand decodes to that entry and operand (R63, R65). -/
theorem decode_primary {w : Word24} {m : Mnemonic} {v : Nat} (hm : m.code < 0xF) (hv : v < 2 ^ 20)
    (hw : w.toNat = m.code * 2 ^ 20 + v) : decode w = .ok (m.toInstr v) := by
  have hop : w.toNat / 2 ^ 20 = m.code := by omega
  have hoperand : w.toNat % 2 ^ 20 = v := by omega
  have hentry : primaryEntry m.code = some m := primaryEntry_eq_some_iff.2 ⟨rfl, by have := code_range m; omega⟩
  simp only [decode, slice_op, slice_primary, hop, hoperand, hentry, if_neg hm.ne]

/-- A word with an extended code above a 16-bit operand decodes to that entry and operand (R63, R66). -/
theorem decode_extended {w : Word24} {m : Mnemonic} {v : Nat} (hm : 0xF ≤ m.code) (hv : v < 2 ^ 16)
    (hw : w.toNat = m.code * 2 ^ 16 + v) : decode w = .ok (m.toInstr v) := by
  have hrange := code_range m
  have hop : w.toNat / 2 ^ 20 = 0xF := by omega
  have hoperand : w.toNat % 2 ^ 16 = v := by omega
  have hentry : extendedEntry (w.toNat / 2 ^ 16 % 16) = some m := extendedEntry_eq_some_iff.2 (by omega)
  simp only [decode, slice_op, slice_sub, slice_extended, hop, hoperand, hentry, if_pos]

/-- A word decodes to an instruction exactly when that is well-formed and the word is its encoding (R63, R70, R72, R73). -/
theorem decode_eq_ok_iff {w : Word24} {i : Instr} : decode w = .ok i ↔ i.wellFormed = true ∧ i.encode = w := by
  constructor
  · intro h
    obtain ⟨m, -, hentry, rfl⟩ | ⟨m, hop, hentry, rfl⟩ := decode_ok h
    · obtain ⟨hcode, hle⟩ := primaryEntry_eq_some_iff.1 hentry
      rw [toInstr_wellFormed_and_encode_iff, operandBits_primary (by omega)]
      omega
    · have hcode := extendedEntry_eq_some_iff.1 hentry
      rw [toInstr_wellFormed_and_encode_iff, operandBits_extended (by omega)]
      omega
  · obtain ⟨m, v, rfl⟩ := exists_toInstr i
    rw [toInstr_wellFormed_and_encode_iff]
    rintro ⟨hv, hw⟩
    rcases Nat.lt_or_ge m.code 0xF with hm | hm
    · rw [operandBits_primary hm] at hv hw
      exact decode_primary hm hv hw
    · rw [operandBits_extended hm] at hv hw
      exact decode_extended hm hv hw

/-- Settles O4: half of the equivalence of decoding and encoding. -/
theorem decodedWordEncodesBackToItself : Obligations.DecodedWordEncodesBackToItself := fun _ _ => decode_eq_ok_iff.1

/-- Settles O7: the codes in use and the encode formula; bits [23:16] of the word are then the code. -/
theorem extendedEncodeIsCodeShiftedOrMaskedOperand : Obligations.ExtendedEncodeIsCodeShiftedOrMaskedOperand := by
  intro m x hm
  have hrange := code_range m
  have hword := encode_toNat_extended hm x
  rw [slice_op, slice_sub]
  omega

/-- Encoding an operand that fits its field and decoding the word gives the entry and the operand back (R76). -/
theorem decode_encode {m : Mnemonic} {x : HostInt} (hx : x.toNat < 2 ^ operandBits m) :
    decode (m.encode x) = .ok (m.toInstr x.toNat) :=
  decode_eq_ok_iff.2 ⟨toInstr_wellFormed_iff.2 hx, by simp [Instr.encode]⟩

theorem Mnemonic.mem_all (m : Mnemonic) : m ∈ Mnemonic.all := by cases m <;> decide

/-- Settles O3: the round trip, HALT by evaluation of the lookup, and both fields from the encode formula. -/
theorem encodeThenDecodeGivesTheEntryBack : Obligations.EncodeThenDecodeGivesTheEntryBack := by
  refine ⟨fun m x hx => ?roundTrip, fun _ => rfl, fun m x hm => ?extended, fun m x hm => ?primary,
    fun _ i _ => i.mnemonic.mem_all⟩
  case roundTrip =>
    rw [← apply_ite (2 ^ ·)] at hx
    exact ⟨m.toInstr x.toNat, decode_encode hx, toInstr_mnemonic .., toInstr_operand ..⟩
  case extended =>
    have hrange := code_range m
    have hword := encode_toNat_extended hm x
    rw [slice_op, slice_extended]
    omega
  case primary =>
    have hword := encode_toNat_primary hm x
    rw [slice_op, slice_primary]
    omega

end Sys2Proof
end

section
/-! The step cycle and its ends (40_step_engine.md R90 to R94, R98, R101, R103): what finalization and the trace record change,
said as one update of the state, so that each end of a step and a cancellation is read off. -/

namespace Sys2Proof.Machine

variable {silent atomic : Bool} {s t u : State} {w : HostInt} {i : Instr}

/-- Finalization sets its flag and delivers its events, and is done once (R103). -/
theorem finalize_eq (s : State) : finalize s = { s with finalized := true, out := s.out ++ finalEvents s } := by
  cases hf : s.finalized with
  | true => cases s; simp_all [finalize, finalEvents]
  | false => simp [finalize, finalEvents, hf, emit, setFinalized, delivered]

theorem finalizeUnless_eq (atomic : Bool) (s : State) :
    finalizeUnless atomic s =
      { s with finalized := s.finalized || !atomic, out := s.out ++ if atomic then [] else finalEvents s } := by
  cases atomic with
  | true => simp [finalizeUnless]
  | false => simp [finalizeUnless, finalize_eq]

theorem finalizeIfHalted_eq (atomic : Bool) (s : State) :
    finalizeIfHalted atomic s =
      { s with
        finalized := s.finalized || (!s.running && !atomic)
        out := s.out ++ if atomic || s.running then [] else finalEvents s } := by
  cases hr : s.running with
  | true => cases s; simp_all [finalizeIfHalted]
  | false => simp [finalizeIfHalted, hr, finalizeUnless_eq]

/-- The trace record is a delivery and no other change (R100 to R102). -/
theorem traceUnless_eq (silent : Bool) (a : Nat) (w : HostInt) (i : Instr) (s : State) :
    traceUnless silent a w i s = { s with out := s.out ++ if silent then [] else traceEvents a w i s } := by
  cases silent with
  | true => simp [traceUnless]
  | false =>
    by_cases hz : w = 0 ∧ 1 ≤ a ∧ Memory.read s.mem (a - 1) = some 0
    · simp [traceUnless, zeroPadding, traceEvents, hz]
    · simp only [traceUnless, zeroPadding, traceEvents, hz]
      rfl

/-- After its action a step only delivers, and finalizes a halted machine unless it is atomic (R94, R100). -/
theorem afterAction_eq (silent atomic : Bool) (a : Nat) (w : HostInt) (i : Instr) (s : State) :
    afterAction silent atomic a w i s =
      { s with
        finalized := s.finalized || (!s.running && !atomic)
        out := s.out ++ (if silent then [] else traceEvents a w i s) ++
          if atomic || s.running then [] else finalEvents s } := by
  rw [afterAction, traceUnless_eq, finalizeIfHalted_eq]
  rfl

/-- A terminating event that logs its line and, unless atomic, finalizes (R91, R92, R151). -/
theorem finalizeUnless_emitLog_halt (atomic : Bool) (r : LogRecord) (reason : HaltReason) (s : State) :
    finalizeUnless atomic (emitLog r (halt reason s)) =
      { s with
        running := false, haltReason := reason, finalized := s.finalized || !atomic
        out := s.out ++ delivered s (.log r) ++ if atomic then [] else finalEvents s } := by
  rw [finalizeUnless_eq]
  rfl

theorem Dispatches.wellFormed (h : Dispatches s w i) : i.wellFormed = true := by
  obtain ⟨-, hd⟩ := decodeCell_ok h.decoded
  exact (decode_eq_ok_iff.1 hd).1

theorem Dispatches.stepWith_eq (h : Dispatches s w i) :
    stepWith silent atomic s = dispatch silent atomic w i (countStep s) := by
  rw [stepWith_word h.noFault h.below h.fetched, runWord, h.decoded]

/-- A dispatched step whose action completes (R93, R94). -/
theorem Dispatches.stepWith_of_next (h : Dispatches s w i) (he : exec i (actionState s) = .next u) :
    stepWith silent atomic s = .next (afterAction silent atomic s.ip w i u) := by
  have hx : exec i (setIp ((countStep s).ip + 1) (countStep s)) = .next u := he
  rw [h.stepWith_eq, dispatch, hx]
  rfl

/-- A dispatched step whose action faults (R156). -/
theorem Dispatches.stepWith_of_fault {f : Fault} (h : Dispatches s w i) (he : exec i (actionState s) = .fault f) :
    stepWith silent atomic s = .fault f := by
  have hx : exec i (setIp ((countStep s).ip + 1) (countStep s)) = .fault f := he
  rw [h.stepWith_eq, dispatch, hx]

/-- Settles O32: the deliveries of `afterAction`. -/
theorem stepDeliversTraceThenFinalization : Obligations.StepDeliversTraceThenFinalization := by
  intro silent atomic s u w i h he
  exact ⟨_, h.stepWith_of_next he, by rw [afterAction_eq]⟩

/-- Settles O31: the decoded instruction is well-formed, and `afterAction` keeps all but deliveries and the flag. -/
theorem stepRunsTheDecodedInstruction : Obligations.StepRunsTheDecodedInstruction := by
  intro s w i h
  refine ⟨h.wellFormed, fun u he => ⟨_, h.stepWith_of_next he, ?_⟩, fun f he => h.stepWith_of_fault he⟩
  rw [afterAction_eq]

/-- Settles O35: the step trips the ceiling, which halts and logs on the counted state. -/
theorem ceilingTripHaltsWithoutExecuting : Obligations.CeilingTripHaltsWithoutExecuting := by
  intro silent atomic s hs hc
  rw [stepWith_ceiling hs hc, tripCeiling, finalizeUnless_emitLog_halt]
  rfl

/-- Settles O36: the fetch finds no word, and the halt is on the counted state with `ip` as the parameter says. -/
theorem undefinedFetchHaltsGracefully : Obligations.UndefinedFetchHaltsGracefully := by
  rintro silent atomic s next hs hc hno rfl
  rw [stepWith_undefinedFetch hs hc (fetch_eq_none.2 hno), haltUndefinedFetch, finalizeUnless_emitLog_halt]
  rfl

/-- Settles O37: the word runs as a decode failure, which halts and logs on the counted state with `ip` advanced. -/
theorem decodeFailureHaltsWithItsCode : Obligations.DecodeFailureHaltsWithItsCode := by
  intro silent atomic s w code hs hc hf hd
  rw [stepWith_word hs hc hf, runWord, hd]
  rfl

end Sys2Proof.Machine
end

section
/-! Cancellation (40_step_engine.md R98): the state it answers, written out. -/

namespace Sys2Proof.Machine

theorem haltIfRunning_eq (s : State) :
    haltIfRunning s =
      { s with running := false, haltReason := if s.running then .cancelled else s.haltReason } := by
  cases hr : s.running with
  | true => simp [haltIfRunning, hr, halt]
  | false => cases s; simp_all [haltIfRunning]

/-- What `cancel` leaves (R98). -/
def afterCancel (s : State) : State :=
  { s with
    scheduled := false, running := false, finalized := true
    haltReason := if s.running then .cancelled else s.haltReason
    out := s.out ++ finalEvents s }

theorem cancel_eq {s : State} (hs : s.fault = none) : cancel s = .next (afterCancel s) := by
  rw [cancel, hs, haltIfRunning_eq, finalize_eq]
  rfl

/-- Nothing is left to cancel: the run is finalized, halted and not scheduled. -/
@[simp] theorem afterCancel_afterCancel (s : State) : afterCancel (afterCancel s) = afterCancel s := by
  simp [afterCancel, finalEvents]

/-- Settles O53: `cancel` answers `afterCancel`, which is idempotent. -/
theorem cancelFinalizesOnceAndIsIdempotent : Obligations.CancelFinalizesOnceAndIsIdempotent := by
  intro s hs
  refine ⟨afterCancel s, cancel_eq hs, rfl, ?_⟩
  rw [cancel_eq (s := afterCancel s) hs, afterCancel_afterCancel]

end Sys2Proof.Machine
end

section
/-! Silent steps (40_step_engine.md R96, R97, R101): the trace records are those delivered before, as every end of a silent step
sends log lines and completions only. -/

namespace Sys2Proof.Machine

variable {atomic : Bool} {s t : State}

theorem traces_congr (h : t.out = s.out) : traces t = traces s := by rw [traces, h, traces]

theorem traces_emit {e : Event} (he : e.isTrace = false) (s : State) : traces (emit e s) = traces s := by
  simp only [traces, emit_out, delivered]
  split <;> simp [he]

@[simp] theorem traces_finalize (s : State) : traces (finalize s) = traces s := by
  unfold finalize
  split
  · rfl
  · exact (traces_emit rfl _).trans (traces_emit rfl _)

@[simp] theorem traces_finalizeUnless (atomic : Bool) (s : State) : traces (finalizeUnless atomic s) = traces s := by
  cases atomic with
  | true => rfl
  | false => exact traces_finalize s

@[simp] theorem traces_finalizeIfHalted (atomic : Bool) (s : State) : traces (finalizeIfHalted atomic s) = traces s := by
  unfold finalizeIfHalted
  split
  · rfl
  · exact traces_finalizeUnless atomic s

theorem ActionEffect.traces_eq (h : ActionEffect s t) : traces t = traces s := by
  cases h with
  | log l => exact traces_emit rfl s
  | acc | jump | none | store | halt => rfl

/-- Only the trace record of a step that is not silent adds to the trace channel (R100, R101). -/
theorem StepEnd.traces_eq (h : StepEnd true atomic s t) : traces t = traces s := by
  cases h with
  | ceiling => exact (traces_finalizeUnless ..).trans (traces_emit rfl _)
  | undefinedFetch => exact (traces_finalizeUnless ..).trans (traces_emit rfl _)
  | invalidCommand => exact traces_emit rfl _
  | action _ _ _ he => exact (traces_finalizeIfHalted ..).trans (exec_effect he).traces_eq

theorem traces_of_silent_step (h : stepWith true atomic s = .next t) : traces t = traces s :=
  (stepWith_end h).2.traces_eq

/-- The loop of `run` keeps what each of its silent steps keeps (R96). -/
theorem runLoop_keeps {P : State → Prop} (hstep : ∀ s t, P s → stepWith true false s = .next t → P t) {n : Nat}
    (hs : P s) (h : runLoop n s = .next t) : P t := by
  induction n generalizing s with
  | zero => cases h; exact hs
  | succ n ih =>
    unfold runLoop at h
    split at h
    · split at h
      · exact ih (hstep _ _ hs ‹_›) h
      · cases h
      · cases h
    · cases h; exact hs

/-- A run is a start and then its loop (R96). -/
theorem run_end (h : run s = .next t) : ∃ u n, start s = .next u ∧ runLoop n u = .next t := by
  unfold run at h
  split at h
  · exact ⟨_, _, ‹_›, h⟩
  · cases h
  · cases h

theorem start_out (h : start s = .next t) : t.out = s.out := by
  unfold start at h
  split at h
  · cases h
  · cases h; rfl

theorem traces_of_run (h : run s = .next t) : traces t = traces s := by
  obtain ⟨u, n, hu, hloop⟩ := run_end h
  exact runLoop_keeps (P := fun v => traces v = traces s) (fun _ _ hv hstep => (traces_of_silent_step hstep).trans hv)
    (traces_congr (start_out hu)) hloop

/-- A tick of a scheduled, running machine is a step that is not silent, and the end of the schedule once halted (R97). -/
theorem tick_of_step (hs : s.fault = none) (hsched : s.scheduled = true) (hrun : s.running = true)
    (hstep : stepWith false false s = .next t) : tick s = .next (unscheduleIfHalted t) := by
  simp [tick, tickRunning, hs, hsched, hrun, hstep]

/-- Settles O44: silent steps by their ends, a run by its loop, and the tick's one step. -/
theorem silentStepsAreNotTraced : Obligations.SilentStepsAreNotTraced :=
  ⟨fun _ _ _ => traces_of_silent_step, fun _ _ => traces_of_run, fun _ _ => tick_of_step⟩

end Sys2Proof.Machine
end

section
/-! Loads and stores (41_load_store.md R110 to R115): the value of an immediate, the range of a pointer, and the state a store
ends in; the meanings themselves are cited through their `↔` lemmas. -/

namespace Sys2Proof.Machine

variable {s : State} {v : Nat} {p : HostInt}

/-- The last address a 20-bit operand names (R115). -/
theorem zext20_le (v : Nat) : zext20 v ≤ 0xFFFFF := Nat.le_of_lt_succ (zext20_lt v)

/-- An immediate is the operand's 20 bits as a value, which is never negative (R115). -/
@[simp] theorem immediate_toInt (v : Nat) : (immediate v).toInt = zext20 v := by
  have hle := zext20_le v
  have hpattern : (BitVec.ofNat 32 (zext20 v)).toNat = zext20 v := by rw [BitVec.toNat_ofNat]; omega
  rw [immediate, BitVec.toInt_eq_toNat_of_lt, hpattern]
  omega

/-- A pointer outside 0 to 0xFFFFF names no cell: it is not wrapped into the address space (R115, D9). -/
theorem inAddr_indirectAddr_eq_false (h : p.toInt < 0 ∨ 0xFFFFF < p.toInt) : inAddr (indirectAddr p) = false := by
  rw [Bool.eq_false_iff, ne_eq, inAddr_iff, indirectAddr]
  omega

/-- A pointer inside 0 to 0xFFFFF names the cell of its own value (R115). -/
theorem inAddr_indirectAddr_and_toNat {a : Nat} (hp : p.toInt = a) (ha : a ≤ 0xFFFFF) :
    inAddr (indirectAddr p) = true ∧ (indirectAddr p).toNat = a := by
  rw [inAddr_iff, indirectAddr]
  omega

/-- A store changes nothing but memory, and in memory its own cell alone (20_memory.md R44). -/
theorem setMem_write_spec (s : State) (a : Nat) (x : HostInt) {t : State} (ht : t = setMem (Memory.write s.mem a x) s) :
    t = { s with mem := t.mem } ∧ Memory.read t.mem a = some x ∧
      ∀ b, b ≠ a → Memory.read t.mem b = Memory.read s.mem b := by
  subst ht
  exact ⟨rfl, Memory.read_write_same .., fun _ hb => Memory.read_write_other _ _ hb⟩

/-- Settles O13: the immediate is the operand's 20 bits, and an operand below 2^20 is its own word, the opcode being 0. -/
theorem ldcLoadsItsOperand : Obligations.LdcLoadsItsOperand := by
  refine ⟨fun s v hv => ⟨immediate v, ?value, rfl, ?encoding⟩, fun s v => ⟨immediate v, ?nonneg, ?le, rfl⟩⟩
  case value => rw [immediate_toInt, zext20_of_lt hv]
  case encoding =>
    have hcode : Mnemonic.ldc.code = 0 := rfl
    have hword : (BitVec.ofNat 24 v).toNat = v := by rw [BitVec.toNat_ofNat]; omega
    exact decode_primary (m := .ldc) (by decide) hv (by omega)
  case nonneg => rw [immediate_toInt]; omega
  case le => have hle := zext20_le v; rw [immediate_toInt]; omega

/-- Settles O14: the two outcomes of LDV, at an operand that is its own address. -/
theorem ldvLoadsTheCell : Obligations.LdvLoadsTheCell := by
  intro s v hv
  have hz : zext20 v = v := zext20_of_lt hv
  constructor
  · intro m hm
    exact execLdv_eq_next.2 ⟨m, by rwa [hz], rfl⟩
  · intro hm
    exact execLdv_eq_fault.2 ⟨by rwa [hz], by rw [hz]⟩

/-- Settles O15: STV's next state is the store to its operand's cell. -/
theorem stvStoresTheAccumulator : Obligations.StvStoresTheAccumulator := by
  intro s v hv
  constructor
  · intro x hx
    exact ⟨_, execStv_eq_next.2 ⟨x, hx, rfl⟩, setMem_write_spec s v x (by rw [zext20_of_lt hv])⟩
  · intro hacc
    exact execStv_eq_fault.2 ⟨hacc, rfl⟩

/-- Settles O16: the outcomes of LDIV in their order, the pointer's range deciding between the two later faults. -/
theorem ldivLoadsThroughThePointer : Obligations.LdivLoadsThroughThePointer := by
  intro s v hv
  have hz : zext20 v = v := zext20_of_lt hv
  refine ⟨fun hcell => execLdiv_eq_fault.2 (.inl ⟨by rwa [hz], by rw [hz]⟩), fun p hcell => ?_⟩
  rw [← hz] at hcell
  refine ⟨fun hout => ?outside, fun a hp ha => ?inside⟩
  case outside =>
    exact execLdiv_eq_fault.2 (.inr ⟨p, hcell, .inr ⟨inAddr_indirectAddr_eq_false hout, rfl⟩⟩)
  case inside =>
    obtain ⟨haddr, rfl⟩ := inAddr_indirectAddr_and_toNat hp ha
    constructor
    · intro htarget
      exact execLdiv_eq_fault.2 (.inr ⟨p, hcell, .inl ⟨haddr, htarget, rfl⟩⟩)
    · intro m htarget
      exact execLdiv_eq_next.2 ⟨p, m, hcell, haddr, htarget, rfl⟩

/-- STIV reads the pointer before the accumulator (R114; 60_exceptions.md R159). -/
theorem stiv_operandFaults (hv : v < addrSpace) : operandFaults (.stiv v) v s := by
  have hz : zext20 v = v := zext20_of_lt hv
  constructor
  · intro hcell
    exact execStiv_eq_fault.2 (.inl ⟨by rwa [hz], by rw [hz]⟩)
  · intro hcell hacc
    obtain ⟨p, hp⟩ := Option.ne_none_iff_exists'.1 hcell
    exact execStiv_eq_fault.2 (.inr ⟨p, by rwa [hz], .inl ⟨hacc, rfl⟩⟩)

/-- Settles O17: the operand faults, then the pointer's range deciding between the fault and the store. -/
theorem stivStoresThroughThePointer : Obligations.StivStoresThroughThePointer := by
  intro s v hv
  refine ⟨stiv_operandFaults hv, fun p x hcell hacc => ?_⟩
  rw [← zext20_of_lt hv] at hcell
  refine ⟨fun hout => ?outside, fun a hp ha => ?inside⟩
  case outside =>
    exact execStiv_eq_fault.2 (.inr ⟨p, hcell, .inr ⟨x, hacc, inAddr_indirectAddr_eq_false hout, rfl⟩⟩)
  case inside =>
    obtain ⟨haddr, rfl⟩ := inAddr_indirectAddr_and_toNat hp ha
    exact ⟨_, execStiv_eq_next.2 ⟨p, x, hcell, hacc, haddr, rfl⟩, setMem_write_spec s _ x rfl⟩

end Sys2Proof.Machine
end

section
/-! Arithmetic and logic (42_alu.md R120 to R126): what the two operand shapes answer at operands that are there, and the value
of each operation. -/

namespace Sys2Proof.Machine

variable {s : State} {v : Nat} {m x r : HostInt} {g : HostInt → HostInt → Except Fault HostInt}

/-- A two-operand instruction reads its cell before the accumulator (60_exceptions.md R159). -/
theorem operandFaults_of_accWithMemory {i : Instr} (hi : exec i s = accWithMemory g v s) (hv : v < addrSpace) :
    operandFaults i v s := by
  have hz : zext20 v = v := zext20_of_lt hv
  rw [operandFaults, hi]
  constructor
  · intro hcell
    exact accWithMemory_eq_fault.2 (.inl ⟨by rwa [hz], by rw [hz]⟩)
  · intro hcell hacc
    obtain ⟨m, hm⟩ := Option.ne_none_iff_exists'.1 hcell
    exact accWithMemory_eq_fault.2 (.inr ⟨m, by rwa [hz], .inl ⟨hacc, rfl⟩⟩)

section
variable (hv : v < addrSpace) (hcell : Memory.read s.mem v = some m) (hacc : s.acc = some x)
include hv hcell hacc

/-- With both operands there, the operation's value goes to the accumulator. -/
theorem accWithMemory_next (hg : g x m = .ok r) : accWithMemory g v s = .next (setAcc r s) :=
  accWithMemory_eq_next.2 ⟨m, x, r, by rwa [zext20_of_lt hv], hacc, hg, rfl⟩

/-- With both operands there, the operation's fault is the step's. -/
theorem accWithMemory_fault {f : Fault} (hg : g x m = .error f) : accWithMemory g v s = .fault f :=
  accWithMemory_eq_fault.2 (.inr ⟨m, by rwa [zext20_of_lt hv], .inr ⟨x, hacc, hg⟩⟩)

end

theorem inHostRange_iff {n : Int} : inHostRange n = true ↔ -2 ^ 31 ≤ n ∧ n ≤ 2 ^ 31 - 1 := by simp [inHostRange]

/-- An exact sum in the host range is the addition's value (R120). -/
theorem hostAdd_of_inHostRange (h : inHostRange (x.toInt + m.toInt) = true) :
    ∃ r : HostInt, r.toInt = x.toInt + m.toInt ∧ hostAdd x m = .ok r :=
  ⟨_, toInt_ofInt_of_inHostRange h, if_pos h⟩

/-- An exact sum outside the host range is the addition's fault (R120, D5). -/
theorem hostAdd_of_not_inHostRange (h : ¬inHostRange (x.toInt + m.toInt) = true) :
    hostAdd x m = .error (.hostRangeExceeded (x.toInt + m.toInt)) := if_neg h

/-- The sentinel's two values (R124): patterns are equal exactly where the integers are. -/
theorem hostEql_toInt (x y : HostInt) : (hostEql x y).toInt = if x.toInt = y.toInt then -1 else 0 := by
  simp only [hostEql, BitVec.toInt_inj]
  split <;> rfl

@[simp] theorem hostNot_hostNot (x : HostInt) : hostNot (hostNot x) = x := BitVec.not_not

/-- Writing back what the accumulator holds changes nothing. -/
theorem setAcc_of_acc_eq (h : s.acc = some x) : setAcc x s = s := by rw [setAcc, ← h]

/-- RAR moves bits [23:1] down by one, and puts bit 24 OR bit 0 on top: the shift left by 23 brings bit 0 to bit 23, where the
shift right has brought bit 24 (R126, C4). -/
theorem hostRar_eq_cons (x : HostInt) :
    hostRar x = ((x.extractLsb' 1 23).cons (x.getLsbD 24 || x.getLsbD 0)).setWidth 32 := by
  refine BitVec.eq_of_getLsbD_eq fun i hi => ?_
  have hmask : (0xFFFFFF : HostInt) = BitVec.setWidth 32 (BitVec.allOnes 24) := rfl
  simp only [hostRar, hostAnd, hostOr, hostShr, hostShl, hmask, BitVec.getLsbD_and, BitVec.getLsbD_or,
    BitVec.getLsbD_ushiftRight, BitVec.getLsbD_shiftLeft, BitVec.getLsbD_setWidth, BitVec.getLsbD_allOnes,
    BitVec.getLsbD_cons, BitVec.getLsbD_extractLsb']
  rcases Nat.lt_trichotomy i 23 with hlt | rfl | hgt
  · have hi24 : i < 24 := by omega
    simp [hi, hi24, hlt, hlt.ne]
  · simp
  · have hi24 : ¬i < 24 := by omega
    simp [hi24, hgt.ne', hgt.not_gt]

/-- RAR's value (R126). -/
theorem hostRar_toNat (x : HostInt) :
    (hostRar x).toNat = slice x.toNat 23 1 + if x.getLsbD 24 || x.getLsbD 0 then 2 ^ 23 else 0 := by
  rw [hostRar_eq_cons, BitVec.toNat_setWidth_of_le (by decide), BitVec.toNat_cons', BitVec.extractLsb'_toNat, slice,
    Nat.add_comm, Nat.shiftRight_eq_div_pow]
  cases x.getLsbD 24 || x.getLsbD 0 <;> rfl

/-- Settles O18: the operand faults, then the addition's outcome by the range of the exact sum. -/
theorem addIsTheExactSumOrFaults : Obligations.AddIsTheExactSumOrFaults := by
  intro s v hv
  refine ⟨operandFaults_of_accWithMemory rfl hv, fun m x hcell hacc => ⟨fun hin => ?sum, fun hout => ?fault⟩⟩
  case sum =>
    obtain ⟨r, hr, hadd⟩ := hostAdd_of_inHostRange (inHostRange_iff.2 hin)
    exact ⟨r, hr, accWithMemory_next hv hcell hacc hadd⟩
  case fault =>
    have hrange : ¬inHostRange (x.toInt + m.toInt) = true := by rw [inHostRange_iff]; omega
    exact accWithMemory_fault hv hcell hacc (hostAdd_of_not_inHostRange hrange)

/-- Settles O22: RAR is `hostRar` of the accumulator, whose bits are `hostRar_toNat`. -/
theorem rarIsTheFormulaWithItsLeak : Obligations.RarIsTheFormulaWithItsLeak := by
  intro s v
  exact ⟨fun x hacc => ⟨hostRar x, accAlone_eq_next.2 ⟨x, hacc, rfl⟩, hostRar_toNat x⟩,
    fun hacc => accAlone_eq_fault.2 ⟨hacc, rfl⟩⟩

/-- Settles O21: the complement is `-x - 1` and its own inverse, which restores the accumulator and so the state. -/
theorem notIsTheComplement : Obligations.NotIsTheComplement := by
  intro s v
  refine ⟨fun x hacc => ⟨hostNot x, hostNot_toInt x, accAlone_eq_next.2 ⟨x, hacc, rfl⟩, fun u => ?twice⟩,
    fun hacc => accAlone_eq_fault.2 ⟨hacc, rfl⟩⟩
  case twice =>
    have hback : setAcc (hostNot (hostNot x)) (setAcc (hostNot x) s) = s := by
      rw [hostNot_hostNot]; exact setAcc_of_acc_eq hacc
    exact accAlone_eq_next.2 ⟨hostNot x, rfl, hback.symm⟩

/-- Settles O20: EQL answers the sentinel, and JMN is taken on its sign. -/
theorem eqlGivesTheSentinelThatJmnTakes : Obligations.EqlGivesTheSentinelThatJmnTakes := by
  intro s v hv
  refine ⟨operandFaults_of_accWithMemory rfl hv, fun m x hcell hacc =>
    ⟨hostEql x m, accWithMemory_next hv hcell hacc rfl, hostEql_toInt x m, fun u hu => ?jmn⟩⟩
  case jmn =>
    refine execJmn_eq_next.2 ⟨hostEql x m, rfl, ?_⟩
    simp only [isNegative_hostEql, jumpTarget, zext20_of_lt hu, BitVec.toInt_inj, decide_eq_true_eq]
    split <;> rfl

/-- Settles O19: AND, OR and XOR never fault on operands that are there, and act on the patterns. -/
theorem logicActsOnPatterns : Obligations.LogicActsOnPatterns := by
  intro s v hv
  refine ⟨⟨operandFaults_of_accWithMemory rfl hv, operandFaults_of_accWithMemory rfl hv,
    operandFaults_of_accWithMemory rfl hv⟩, fun m x hcell hacc => ⟨?and, ?or, ?xor⟩⟩
  case and => exact ⟨hostAnd x m, hostAnd_pattern x m, accWithMemory_next hv hcell hacc rfl⟩
  case or => exact ⟨hostOr x m, hostOr_pattern x m, accWithMemory_next hv hcell hacc rfl⟩
  case xor => exact ⟨hostXor x m, hostXor_pattern x m, accWithMemory_next hv hcell hacc rfl⟩

end Sys2Proof.Machine
end

section
/-! Control transfer (43_control.md R130 to R133): what JMP, JMN and HLT answer at the operands their fields spell, and the
words that spell them.  The steps are those of the step cycle, at these actions. -/

namespace Sys2Proof.Machine

variable {s : State} {w : HostInt} {v : Nat}

/-- A primary code in front of a 20-bit operand, as a word (R61, R63). -/
theorem decode_ofNat_primary (m : Mnemonic) (hm : m.code < 0xF) (hv : v < 2 ^ 20) :
    decode (BitVec.ofNat 24 (m.code * 2 ^ 20 + v)) = .ok (m.toInstr v) :=
  decode_primary hm hv (by rw [BitVec.toNat_ofNat]; omega)

/-- An extended code in front of a 16-bit operand, as a word (R62, R63). -/
theorem decode_ofNat_extended (m : Mnemonic) (hm : 0xF ≤ m.code) (hv : v < 2 ^ 16) :
    decode (BitVec.ofNat 24 (m.code * 2 ^ 16 + v)) = .ok (m.toInstr v) :=
  decode_extended hm hv (by have hrange := code_range m; rw [BitVec.toNat_ofNat]; omega)

/-- JMP at an operand that is its own address (R130). -/
theorem exec_jmp (hv : v < addrSpace) : exec (.jmp v) s = .next (setIp v s) := by
  rw [exec, execJmp, jumpTarget, zext20_of_lt hv]

/-- Dispatched, HLT halts the counted state at its own address: its `ip - 1` undoes the advance of the fetch (R132). -/
theorem exec_hlt_actionState (s : State) (v : Nat) :
    exec (.hlt v) (actionState s) =
      .next { s with running := false, haltReason := .haltInstr, stepCount := s.stepCount + 1 } := rfl

/-- A fetch looks at memory alone (20_memory.md R45). -/
theorem fetch_congr {t : State} (h : t.mem = s.mem) (a : Nat) : fetch t a = fetch s a := by rw [fetch, h, fetch]

/-- A start of a state without a fault (40_step_engine.md R95). -/
theorem start_of_fault_eq_none (hs : s.fault = none) :
    start s = .next { s with running := true, haltReason := .none, finalized := false } := by
  rw [start, hs]

/-- The zero word is an LDC, so another instruction is never zero padding (40_step_engine.md R102). -/
theorem traceEvents_of_decodeCell {i : Instr} (hd : decodeCell w = .ok i) (hi : i ≠ .ldc 0) (a : Nat) (u : State) :
    traceEvents a w i u = delivered u (.trace (.of a i.mnemonic i.operand u.acc)) := by
  have hzero : decodeCell 0 = .ok (.ldc 0) := rfl
  have hw : w ≠ 0 := by
    rintro rfl
    exact hi (Except.ok.inj (hd.symm.trans hzero))
  exact if_neg fun h => hw h.1

/-- Settles O25: JMN reads the accumulator, and on its sign jumps or leaves the state. -/
theorem jmnFollowsTheSign : Obligations.JmnFollowsTheSign := by
  intro s v hv
  refine ⟨fun x hacc => execJmn_eq_next.2 ⟨x, hacc, ?_⟩, fun hacc => execJmn_eq_fault.2 ⟨hacc, rfl⟩⟩
  simp only [isNegative, decide_eq_true_eq, jumpTarget, zext20_of_lt hv]
  split <;> rfl

/-- Settles O24: the step leaves JMP's state but for deliveries, and the next step is the one that finds no word at the target,
or the one at the ceiling. -/
theorem jmpGoesToItsTarget : Obligations.JmpGoesToItsTarget := by
  refine ⟨fun s v hv => ⟨exec_jmp hv, decode_ofNat_primary .jmp (by decide) hv⟩, fun s w v h => ?_⟩
  have hv : v < addrSpace := of_decide_eq_true h.wellFormed
  set t := afterAction s.input.silent s.input.atomic s.ip w (.jmp v) (setIp v (actionState s))
  have hip : t.ip = v := afterAction_ip ..
  have hmem : t.mem = s.mem := afterAction_mem ..
  have hfault : t.fault = none := (afterAction_fault ..).trans h.noFault
  refine ⟨t, h.stepWith_of_next (exec_jmp hv), hip, afterAction_running .., afterAction_haltReason ..,
    by rw [hip, fetch_congr hmem], fun hbelow hword => ?wordless, fun hceiling => ?ceiling⟩
  case wordless =>
    rw [← fetch_congr hmem, ← hip, fetch_eq_none] at hword
    exact ⟨_, undefinedFetchHaltsGracefully _ _ t _ hfault hbelow hword rfl, rfl, rfl⟩
  case ceiling => exact ⟨_, ceilingTripHaltsWithoutExecuting _ _ t hfault hceiling, rfl, rfl, hip⟩

/-- Settles O26: the step delivers after HLT's state what every halting step does, and a start keeps `ip` and memory. -/
theorem hltHaltsAtItsOwnAddress : Obligations.HltHaltsAtItsOwnAddress := by
  refine ⟨fun _ _ => rfl, fun v hv => decode_ofNat_extended .hlt (by decide) hv, fun silent atomic s w v h => ?_⟩
  have hstep := h.stepWith_of_next (silent := silent) (atomic := atomic) (exec_hlt_actionState s v)
  rw [afterAction_eq, traceEvents_of_decodeCell h.decoded (by simp)] at hstep
  refine ⟨_, hstep, ?after, _, start_of_fault_eq_none h.noFault, rfl, h.fetched⟩
  case after => cases atomic <;> rfl

end Sys2Proof.Machine
end

section
/-! Output (44_output.md R140): OUT at an operand that is its own address. -/

namespace Sys2Proof.Machine

/-- Settles O27: OUT only reads its cell and emits on the log channel, so an unwritten accumulator is no case of it. -/
theorem outSendsTheCellOnTheLog : Obligations.OutSendsTheCellOnTheLog := by
  intro s v hv
  have hz : zext20 v = v := zext20_of_lt hv
  refine ⟨fun m hcell => ?defined, fun hcell => ?undefined⟩
  case defined => exact execOut_eq_next.2 ⟨m, by rwa [hz], rfl⟩
  case undefined => exact execOut_eq_fault.2 ⟨by rwa [hz], by rw [hz]⟩

end Sys2Proof.Machine
end

section
/-! Termination (60_exceptions.md R150 to R152): the events that end a run in a step, each with its reason, and
cancellation. -/

namespace Sys2Proof.Machine

variable {silent atomic : Bool} {s t : State} {r : HaltReason} {i : Instr}

@[simp] theorem tripCeiling_haltReason (atomic : Bool) (s : State) :
    (tripCeiling atomic s).haltReason = .stepCeiling := by
  simp [tripCeiling]

@[simp] theorem haltUndefinedFetch_haltReason (atomic : Bool) (s : State) :
    (haltUndefinedFetch atomic s).haltReason = .undefinedFetch := by
  simp [haltUndefinedFetch]

@[simp] theorem haltInvalidCommand_haltReason (code : Nat) (s : State) :
    (haltInvalidCommand code s).haltReason = .invalidCommand code := by
  simp [haltInvalidCommand]

/-- Only HLT touches the run flag (43_control.md R132). -/
theorem exec_running_of_ne_hlt (hi : ∀ v, i ≠ .hlt v) (h : exec i s = .next t) : t.running = s.running := by
  cases i with
  | ldc | jmp => cases h; rfl
  | ldv => obtain ⟨_, _, rfl⟩ := execLdv_eq_next.1 h; rfl
  | ldiv => obtain ⟨_, _, _, _, _, rfl⟩ := execLdiv_eq_next.1 h; rfl
  | stv => obtain ⟨_, _, rfl⟩ := execStv_eq_next.1 h; rfl
  | stiv => obtain ⟨_, _, _, _, _, rfl⟩ := execStiv_eq_next.1 h; rfl
  | add | and | or | xor | eql => obtain ⟨_, _, _, _, _, _, rfl⟩ := accWithMemory_eq_next.1 h; rfl
  | not | rar => obtain ⟨_, _, rfl⟩ := accAlone_eq_next.1 h; rfl
  | jmn => obtain ⟨_, _, rfl⟩ := execJmn_eq_next.1 h; split <;> rfl
  | out => obtain ⟨_, _, rfl⟩ := execOut_eq_next.1 h; rfl
  | hlt v => exact absurd rfl (hi v)

/-- The events of a step of `s` that end the run, each with its reason (R150, R152); the ceiling comes before the others
(40_step_engine.md R91). -/
inductive HaltEvent (s : State) : HaltReason → Prop where
  | ceiling (hc : s.params.stepCeiling ≤ s.stepCount + 1) : HaltEvent s .stepCeiling
  | undefinedFetch (hc : s.stepCount + 1 < s.params.stepCeiling) (hf : fetch s s.ip = none) :
      HaltEvent s .undefinedFetch
  | invalidCommand {w code} (hc : s.stepCount + 1 < s.params.stepCeiling) (hf : fetch s s.ip = some w)
      (hd : decodeCell w = .error (.invalidCommand code)) : HaltEvent s (.invalidCommand code)
  | hlt {w v} (hc : s.stepCount + 1 < s.params.stepCeiling) (hf : fetch s s.ip = some w)
      (hd : decodeCell w = .ok (.hlt v)) : HaltEvent s .haltInstr

/-- An event halts the machine with its reason, whether or not it was running. -/
theorem HaltEvent.halts (hev : HaltEvent s r) (h : stepWith silent atomic s = .next t) :
    t.running = false ∧ t.haltReason = r := by
  obtain ⟨hs, -⟩ := stepWith_end h
  cases hev with
  | ceiling hc =>
    rw [stepWith_ceiling hs hc] at h
    cases h; simp
  | undefinedFetch hc hf =>
    rw [stepWith_undefinedFetch hs hc hf] at h
    cases h; simp
  | invalidCommand hc hf hd =>
    rw [stepWith_word hs hc hf, runWord, hd] at h
    cases h; simp
  | @hlt w v hc hf hd =>
    have hdispatch : Dispatches s w (.hlt v) := ⟨hs, hc, hf, hd⟩
    rw [hdispatch.stepWith_of_next (exec_hlt_actionState s v)] at h
    cases h; simp

/-- Nothing but an event halts a running machine in a step: any other end is the action of an instruction that is not HLT. -/
theorem StepEnd.exists_haltEvent (h : StepEnd silent atomic s t) (hrun : s.running = true) (ht : t.running = false) :
    ∃ r, HaltEvent s r := by
  cases h with
  | ceiling hc => exact ⟨_, .ceiling hc⟩
  | undefinedFetch hc hf => exact ⟨_, .undefinedFetch hc hf⟩
  | invalidCommand hc hf hd => exact ⟨_, .invalidCommand hc hf hd⟩
  | @action w i u hc hf hd he =>
    by_cases hi : ∃ v, i = .hlt v
    · obtain ⟨v, rfl⟩ := hi
      exact ⟨_, .hlt hc hf hd⟩
    · have hkept := exec_running_of_ne_hlt (not_exists.1 hi) he
      have hhalted : u.running = false := by simpa using ht
      simp [hkept, hrun] at hhalted

/-- A cancelled run has the reason for it (40_step_engine.md R98). -/
theorem cancel_haltReason (hrun : s.running = true) (h : cancel s = .next t) : t.haltReason = .cancelled := by
  unfold cancel at h
  split at h
  · cases h
  · cases h; simp [haltIfRunning, hrun]

/-- Settles O42: the events are `HaltEvent`, which below the ceiling are told apart by the fetched word. -/
theorem runningMachineHaltsOnExactlyFourEvents : Obligations.RunningMachineHaltsOnExactlyFourEvents := by
  refine ⟨fun silent atomic s t hrun h => ⟨⟨fun ht => ?event, fun hev => ?halted⟩, fun hc => ?atCeiling,
    fun hc => ⟨fun hf => ?noWord, fun w hf => ⟨fun code hd => ?noDecode, fun v hd => ?isHlt⟩⟩⟩,
    fun s t hrun h => ⟨cancel_running h, cancel_haltReason hrun h⟩⟩
  case event =>
    obtain ⟨r, hev⟩ := (stepWith_end h).2.exists_haltEvent hrun ht
    cases hev with
    | ceiling hc => exact .inl hc
    | undefinedFetch hc hf => exact .inr (.inl hf)
    | invalidCommand hc hf hd => exact .inr (.inr (.inl ⟨_, _, hf, hd⟩))
    | hlt hc hf hd => exact .inr (.inr (.inr ⟨_, _, hf, hd⟩))
  case halted =>
    rcases Nat.lt_or_ge (s.stepCount + 1) s.params.stepCeiling with hbelow | hc
    · obtain hc | hf | ⟨w, code, hf, hd⟩ | ⟨w, v, hf, hd⟩ := hev
      · exact ((HaltEvent.ceiling hc).halts h).1
      · exact ((HaltEvent.undefinedFetch hbelow hf).halts h).1
      · exact ((HaltEvent.invalidCommand hbelow hf hd).halts h).1
      · exact ((HaltEvent.hlt hbelow hf hd).halts h).1
    · exact ((HaltEvent.ceiling hc).halts h).1
  case atCeiling => exact ((HaltEvent.ceiling hc).halts h).2
  case noWord => exact ((HaltEvent.undefinedFetch hc hf).halts h).2
  case noDecode => exact ((HaltEvent.invalidCommand hc hf hd).halts h).2
  case isHlt => exact ((HaltEvent.hlt hc hf hd).halts h).2

end Sys2Proof.Machine
end

section
/-! Cells and words (30_encoding.md R63, R67, R68): the cell of a word holds that word, and the words that spell nothing are
those of an unbound opcode or sub-opcode. -/

namespace Sys2Proof

theorem decodeCell_of_inWord24 {w : HostInt} (h : inWord24 w = true) : decodeCell w = decode (w.setWidth 24) := if_pos h

/-- A word of `Word24` as a host integer: its value is the same (R68). -/
theorem toInt_setWidth_word24 (w : Word24) : (w.setWidth 32 : HostInt).toInt = w.toNat := by
  have hlt := w.isLt
  have hpattern : (w.setWidth 32 : HostInt).toNat = w.toNat := BitVec.toNat_setWidth_of_le (by decide)
  rw [BitVec.toInt_eq_toNat_of_lt (by omega), hpattern]

/-- The cell that holds a word is decoded as that word (R63, R68). -/
theorem decodeCell_setWidth (w : Word24) : decodeCell (w.setWidth 32) = decode w := by
  have hlt := w.isLt
  have hcell : inWord24 (w.setWidth 32) = true := by rw [inWord24_iff, toInt_setWidth_word24]; omega
  rw [decodeCell_of_inWord24 hcell, BitVec.setWidth_setWidth_of_le w (by decide), BitVec.setWidth_eq]

/-- Settles O2: the cell decodes as its word, and the word of a well-formed instruction decodes to it. -/
theorem cellOfEncodedInstructionDecodesToIt : Obligations.CellOfEncodedInstructionDecodesToIt := by
  intro i hi
  rw [decodeCell_setWidth]
  exact decode_eq_ok_iff.2 ⟨hi, rfl⟩

/-- Settles O6: a cell in range is the word of its value, which below 2^24 is its pattern. -/
theorem onlyCellsInWord24AreDecoded : Obligations.OnlyCellsInWord24AreDecoded := by
  intro w
  constructor
  · intro hout
    have hcell : ¬inWord24 w = true := by rw [inWord24_iff]; omega
    exact if_neg hcell
  · intro hin
    have hvalue : w.toInt = w.toNat := BitVec.toInt_eq_toNat_of_lt (BitVec.toInt_pos_iff.1 hin.1)
    rw [decodeCell_of_inWord24 (inWord24_iff.2 hin), hvalue]
    rfl

/-- The opcodes the primary catalog does not bind (R65). -/
theorem primaryEntry_eq_none_iff {op : Nat} : primaryEntry op = none ↔ 0xC < op := by
  have hbound : ∀ op < 0xD, primaryEntry op ≠ none := by decide
  constructor
  · intro h
    by_contra hle
    exact hbound op (by omega) h
  · intro h
    rw [Option.eq_none_iff_forall_ne_some]
    intro m hm
    have hle := (primaryEntry_eq_some_iff.1 hm).2
    omega

/-- The sub-opcodes the extended catalog does not bind (R66). -/
theorem extendedEntry_eq_none_iff {sub : Nat} : extendedEntry sub = none ↔ 2 < sub := by
  have hbound : ∀ sub < 3, extendedEntry sub ≠ none := by decide
  constructor
  · intro h
    by_contra hle
    exact hbound sub (by omega) h
  · intro h
    rw [Option.eq_none_iff_forall_ne_some]
    intro m hm
    have hcode := extendedEntry_eq_some_iff.1 hm
    have hrange := code_range m
    omega

/-- A word fails to decode at an unbound opcode, or at an unbound sub-opcode of 0xF, and names it (R63, R67). -/
theorem decode_eq_error_iff {w : Word24} {code : Nat} :
    decode w = .error (.invalidCommand code) ↔
      (w.toNat / 2 ^ 20 ≠ 0xF ∧ 0xC < w.toNat / 2 ^ 20 ∧ code = w.toNat / 2 ^ 20) ∨
        (w.toNat / 2 ^ 20 = 0xF ∧ 2 < w.toNat / 2 ^ 16 % 16 ∧ code = 0xF0 + w.toNat / 2 ^ 16 % 16) := by
  simp only [decode, slice_op, slice_sub]
  generalize w.toNat / 2 ^ 20 = op, w.toNat / 2 ^ 16 % 16 = sub
  split
  case isTrue hop =>
    rw [← extendedEntry_eq_none_iff]
    cases extendedEntry sub <;> simp [hop, eq_comm (a := code)]
  case isFalse hop =>
    rw [← primaryEntry_eq_none_iff]
    cases primaryEntry op <;> simp [hop, eq_comm (a := code)]

/-- Settles O5: the unbound opcodes and sub-opcodes are two intervals of words, and the code is the word's top bits. -/
theorem decodeFailsExactlyOnUnboundWords : Obligations.DecodeFailsExactlyOnUnboundWords := by
  intro w code
  have hlt := w.isLt
  rw [decode_eq_error_iff]
  omega

/-- Settles O8: the encode formula, whose top bits are the code; and a name that is no spelling is not in the list. -/
theorem primaryEncodeIsCodeShiftedOrMaskedOperand : Obligations.PrimaryEncodeIsCodeShiftedOrMaskedOperand := by
  constructor
  · intro m x hm
    have hword := encode_toNat_primary hm x
    rw [slice_op]
    omega
  · intro name x hhalt hspelling
    have hnone : Mnemonic.all.find? (fun m => m.spelling == name) = none :=
      List.find?_eq_none.2 fun m _ => by simpa using hspelling m
    rw [encodeSpelling, lookupSpelling, if_neg hhalt, hnone]
    rfl

/-- Settles O1: each word is fixed, so the decoder is run on it. -/
theorem specWordsDecodeAsTheTableSays : Obligations.SpecWordsDecodeAsTheTableSays := by
  unfold Obligations.SpecWordsDecodeAsTheTableSays
  decide

end Sys2Proof
end

section
/-! Reset (70_reset_and_hazards.md R170, R171): which images and start addresses are admitted, and the memory an image makes. -/

namespace Sys2Proof.Machine

variable {p : Params} {ch : Channels} {image : List Int} {a : Nat} {t : State}

/-- The preconditions of `reset` (R171). -/
def Admitted (image : List Int) (a : Nat) : Prop :=
  a < addrSpace ∧ image.length ≤ addrSpace ∧ ∀ w ∈ image, inHostRange w = true

/-- An admitted reset creates the initial state over the image (R170). -/
theorem resetWith_of_admitted (h : Admitted image a) :
    resetWith p ch image (some a) = .next (State.initial p ch (imageMemory 0 image) a) := by
  obtain ⟨hstart, hlength, hwords⟩ := h
  have hfind : image.find? (fun w => !inHostRange w) = none :=
    List.find?_eq_none.2 fun w hw => by simp [hwords w hw]
  rw [resetWith, if_neg hstart.not_ge, if_neg hlength.not_gt, hfind]

/-- Every other reset is refused (R171). -/
theorem resetWith_of_not_admitted (h : ¬Admitted image a) : ∃ r, resetWith p ch image (some a) = .refused r := by
  rw [resetWith]
  split
  case isTrue => exact ⟨_, rfl⟩
  case isFalse hstart =>
    split
    case isTrue => exact ⟨_, rfl⟩
    case isFalse hlength =>
      split
      case h_1 => exact ⟨_, rfl⟩
      case h_2 hfind =>
        refine absurd ⟨not_le.1 hstart, not_lt.1 hlength, fun w hw => ?_⟩ h
        simpa using List.find?_eq_none.1 hfind w hw

/-- The inversion of `reset`. -/
theorem resetWith_eq_next {start : Option Nat} (h : resetWith p ch image start = .next t) :
    ∃ a, Admitted image a ∧ t = State.initial p ch (imageMemory 0 image) a := by
  cases start with
  | none => cases h
  | some a =>
    by_cases ha : Admitted image a
    · rw [resetWith_of_admitted ha] at h
      cases h
      exact ⟨a, ha, rfl⟩
    · obtain ⟨r, hr⟩ := resetWith_of_not_admitted (p := p) (ch := ch) ha
      rw [hr] at h
      cases h

/-- Cell `base + k` of an image's memory holds its `k`-th word (R170). -/
theorem imageMemory_read (ws : List Int) (base k : Nat) :
    Memory.read (imageMemory base ws) (base + k) = ws[k]?.map (BitVec.ofInt 32) := by
  induction ws generalizing base k with
  | nil => rfl
  | cons w ws ih =>
    cases k with
    | zero => simp [imageMemory, Memory.read]
    | succ k =>
      have hother : base ≠ base + (k + 1) := by omega
      rw [imageMemory, Memory.read, if_neg hother, List.getElem?_cons_succ, ← ih (base + 1) k]
      congr 1
      omega

/-- The words of an image of host integers are in its memory as they are (R170). -/
theorem imageMemory_read_toInt (h : ∀ w ∈ image, inHostRange w = true) (x : Nat) :
    (Memory.read (imageMemory 0 image) x).map BitVec.toInt = image[x]? := by
  have hread := imageMemory_read image 0 x
  rw [Nat.zero_add] at hread
  rw [hread, Option.map_map]
  cases hx : image[x]? with
  | none => rfl
  | some w => exact congrArg some (toInt_ofInt_of_inHostRange (h w (List.mem_of_getElem? hx)))

/-- Settles O50: an admitted image gives the initial state over its memory, and what is not admitted is refused. -/
theorem resetCreatesTheImageStateOrRefuses : Obligations.ResetCreatesTheImageStateOrRefuses := by
  intro p ch image
  refine ⟨⟨_, rfl⟩, fun a => ?_⟩
  simp only [← inHostRange_iff]
  refine ⟨fun h => ⟨_, resetWith_of_admitted h, rfl, rfl, rfl, rfl, rfl, rfl, rfl, rfl, imageMemory_read_toInt h.2.2⟩,
    resetWith_of_not_admitted⟩

/-- Settles O49: the fields of a literal state. -/
theorem resetLeavesTheTabledValues : Obligations.ResetLeavesTheTabledValues :=
  ⟨rfl, rfl, rfl, rfl, rfl, rfl, rfl, fun _ => rfl⟩

end Sys2Proof.Machine
end

section
/-! The invariant (10_state.md, 20_memory.md R40, 60_exceptions.md R153): every update of the state keeps it, so every end of a
step does, and with the steps every host operation. -/

namespace Sys2Proof.Machine

variable {silent atomic : Bool} {s t : State}

/-! The updates. -/

theorem State.Inv.setAcc (h : s.Inv) (x : HostInt) : (setAcc x s).Inv := { h with }

theorem State.Inv.setScheduled (h : s.Inv) (b : Bool) : (setScheduled b s).Inv := { h with }

theorem State.Inv.recordFault (h : s.Inv) (f : Fault) : (recordFault f s).Inv := { h with }

theorem State.Inv.countStep (h : s.Inv) : (countStep s).Inv := { h with }

theorem State.Inv.emit (h : s.Inv) (e : Event) : (emit e s).Inv := { h with }

theorem State.Inv.store (h : s.Inv) {a : Nat} (ha : a < addrSpace) (x : HostInt) :
    (setMem (Memory.write s.mem a x) s).Inv :=
  { h with memory := Memory.wf_write h.memory ha }

theorem State.Inv.setIp (h : s.Inv) {a : Nat} (ha : s.params.undefFetchAdvancesIp = false → a ≤ addrSpace) :
    (setIp a s).Inv :=
  { h with ipBound := ha }

/-- A halt keeps the invariant, if the reason names no bound code. -/
theorem State.Inv.halt (h : s.Inv) {r : HaltReason} (hr : ∀ c, r = .invalidCommand c → failureCode c) :
    (halt r s).Inv :=
  { h with runningReason := nofun, runningOpen := nofun, reasonCode := hr }

/-- Finalization keeps the invariant of a halted machine. -/
theorem State.Inv.finalize (h : s.Inv) (hs : s.running = false) : (finalize s).Inv := by
  rw [finalize_eq]
  exact { h with runningOpen := fun hrun => absurd (hs.symm.trans hrun) (by decide) }

theorem State.Inv.finalizeUnless (h : s.Inv) (hs : s.running = false) (atomic : Bool) :
    (finalizeUnless atomic s).Inv := by
  cases atomic with
  | true => exact h
  | false => exact h.finalize hs

theorem State.Inv.afterAction (h : s.Inv) (silent atomic : Bool) (a : Nat) (w : HostInt) (i : Instr) :
    (afterAction silent atomic a w i s).Inv := by
  have htraced : (traceUnless silent a w i s).Inv := by rw [traceUnless_eq]; exact { h with }
  unfold Machine.afterAction finalizeIfHalted
  split
  case isTrue => exact htraced
  case isFalse hrun => exact htraced.finalizeUnless (Bool.eq_false_iff.2 hrun) atomic

/-! The steps. -/

/-- The codes of decode failures are those of the unbound entries (30_encoding.md R67; R153). -/
theorem failureCode_of_decodeCell {w : HostInt} {c : Nat} (h : decodeCell w = .error (.invalidCommand c)) :
    failureCode c := by
  have hword := (w.setWidth 24 : Word24).isLt
  have hcode := decode_eq_error_iff.1 (decodeCell_invalidCommand h).2
  unfold failureCode
  omega

/-- Past a fetched word `ip` is in bounds: the word was inside the address space (10_state.md R23). -/
theorem State.Inv.advance (h : s.Inv) {w : HostInt} (hf : fetch s s.ip = some w) :
    (Machine.setIp (s.ip + 1) (Machine.countStep s)).Inv :=
  h.countStep.setIp fun _ => (fetch_eq_some.1 hf).1

theorem ActionEffect.inv (h : ActionEffect s t) (hs : s.Inv) : t.Inv := by
  cases h with
  | acc x => exact hs.setAcc x
  | jump a ha => exact hs.setIp fun _ => ha.le
  | none => exact hs
  | store a x ha => exact hs.store ha x
  | halt => exact (hs.halt (r := .haltInstr) nofun).setIp fun hp => (Nat.sub_le ..).trans (hs.ipBound hp)
  | log l => exact hs.emit _

theorem StepEnd.inv (h : StepEnd silent atomic s t) (hs : s.Inv) : t.Inv := by
  cases h with
  | ceiling => exact ((hs.countStep.halt (r := .stepCeiling) nofun).emit _).finalizeUnless rfl atomic
  | undefinedFetch =>
    have hip : (setIp (ipAfterUndefinedFetch (countStep s)) (countStep s)).Inv :=
      hs.countStep.setIp fun hp => by
        have hstays : ipAfterUndefinedFetch (countStep s) = s.ip := by simp_all [ipAfterUndefinedFetch]
        rw [hstays]
        exact hs.ipBound hp
    exact ((hip.halt (r := .undefinedFetch) nofun).emit _).finalizeUnless rfl atomic
  | invalidCommand _ hf hd =>
    exact ((hs.advance hf).halt fun c hc => by cases hc; exact failureCode_of_decodeCell hd).emit _
  | action _ hf _ he => exact ((exec_effect he).inv (hs.advance hf)).afterAction ..

theorem stepWith_inv (hs : s.Inv) (h : stepWith silent atomic s = .next t) : t.Inv := (stepWith_end h).2.inv hs

/-- Settles O57: a step is `stepWith` with the flags left in the state. -/
theorem everyStepKeepsTheInvariant : Obligations.EveryStepKeepsTheInvariant := fun _ _ => stepWith_inv

/-! The host operations. -/

/-- A fault is recorded without a change to what the invariant speaks of, so an operation keeps the invariant with its next
state (R156). -/
theorem State.Inv.settle (hs : s.Inv) {o : Host.Outcome State Fault Refusal} (ho : ∀ t, o = .next t → t.Inv) :
    (settle s o).Inv := by
  cases o with
  | next t => exact ho t rfl
  | fault f => exact hs.recordFault f
  | refused r => exact hs

theorem start_inv (hs : s.Inv) (h : start s = .next t) : t.Inv := by
  unfold start at h
  split at h
  · cases h
  · cases h
    exact { hs with runningReason := fun _ => rfl, runningOpen := fun _ => rfl, reasonCode := nofun }

theorem startCooperative_inv (hs : s.Inv) (h : startCooperative s = .next t) : t.Inv := by
  unfold startCooperative at h
  split at h
  · rename_i hstart
    cases h; exact (start_inv hs hstart).setScheduled true
  · cases h
  · cases h

theorem State.Inv.unscheduleIfHalted (h : s.Inv) : (unscheduleIfHalted s).Inv := by
  unfold Machine.unscheduleIfHalted
  split
  · exact h
  · exact h.setScheduled false

theorem tick_inv (hs : s.Inv) (h : tick s = .next t) : t.Inv := by
  obtain rfl | ⟨u, hu, rfl⟩ | rfl := tick_end h
  · exact hs
  · exact (stepWith_inv hs hu).unscheduleIfHalted
  · exact hs.unscheduleIfHalted

theorem State.Inv.haltIfRunning (h : s.Inv) : (haltIfRunning s).Inv := by
  unfold Machine.haltIfRunning
  split
  · exact h.halt nofun
  · exact h

theorem cancel_inv (hs : s.Inv) (h : cancel s = .next t) : t.Inv := by
  unfold cancel at h
  split at h
  · cases h
  · cases h
    exact (hs.setScheduled false).haltIfRunning.finalize (haltIfRunning_running _)

theorem State.Inv.afterRunLoop (hs : s.Inv) (n : Nat) : (afterRunLoop n s).Inv := by
  induction n generalizing s with
  | zero => exact hs
  | succ n ih =>
    unfold Machine.afterRunLoop
    split
    · exact ih (hs.settle fun _ => stepWith_inv hs)
    · exact hs

theorem State.Inv.afterRun (hs : s.Inv) : (afterRun s).Inv := by
  unfold Machine.afterRun
  split
  · rename_i hstart
    exact (start_inv hs hstart).afterRunLoop _
  · exact hs
  · exact hs

theorem State.Inv.afterOp (hs : s.Inv) (op : HostOp) : (afterOp op s).Inv := by
  cases op with
  | start => exact hs.settle fun _ => start_inv hs
  | step silent atomic => exact hs.settle fun _ => stepWith_inv hs
  | run => exact hs.afterRun
  | startCooperative => exact hs.settle fun _ => startCooperative_inv hs
  | tick => exact hs.settle fun _ => tick_inv hs
  | cancel => exact hs.settle fun _ => cancel_inv hs

theorem State.initial_inv {mem : Memory} {a : Nat} (p : Params) (ch : Channels) (hmem : mem.wf = true)
    (ha : a ≤ addrSpace) : (State.initial p ch mem a).Inv where
  memory := hmem
  ipBound _ := ha
  runningReason := nofun
  runningOpen := nofun
  reasonCode := nofun

/-- An admitted image fits, so its memory is canonical, and its start address is inside it (70_reset_and_hazards.md R171). -/
theorem resetWith_inv {p : Params} {ch : Channels} {image : List Int} {start : Option Nat}
    (h : resetWith p ch image start = .next t) : t.Inv := by
  obtain ⟨a, ⟨hstart, hlength, -⟩, rfl⟩ := resetWith_eq_next h
  exact State.initial_inv p ch (imageMemory_wf image 0 (by omega)) hstart.le

/-- Settles O60: by cases on the operation, the loop of a run by induction, and reset by its admitted image. -/
theorem everyHostOperationKeepsTheInvariant : Obligations.EveryHostOperationKeepsTheInvariant :=
  ⟨fun op _ hs => hs.afterOp op, fun _ _ _ _ _ => resetWith_inv⟩

/-- Settles O58: reset is an initial state over the empty memory. -/
theorem resetMeetsTheInvariant : Obligations.ResetMeetsTheInvariant :=
  State.initial_inv _ _ State.reset_mem_wf (Nat.zero_le _)

/-- Settles O59: reset establishes the invariant and every operation keeps it. -/
theorem everyReachableMachineMeetsTheInvariant : Obligations.EveryReachableMachineMeetsTheInvariant := by
  intro s hs
  induction hs with
  | reset h => exact resetWith_inv h
  | op o _ ih => exact ih.afterOp o

end Sys2Proof.Machine
end

section
/-! Frames (10_state.md R21, R24; 20_memory.md R44, R51): what each instruction answers, kept apart by the instruction, and from
it what it leaves unchanged and where it leaves `ip`. -/

namespace Sys2Proof.Machine

/-- What the instructions answer: a value for the accumulator, a jump or not, a store to the instruction's address, HLT's halt,
OUT's line. -/
inductive ExecNext (s : State) : Instr → State → Prop where
  | acc {i} (hi : writesAcc i = true) (x : HostInt) : ExecNext s i (setAcc x s)
  | store {i a} (ha : storeAddress i s = some a) (haddr : inAddr a = true) (x : HostInt) :
      ExecNext s i (setMem (Memory.write s.mem a.toNat x) s)
  | jmp (v : Nat) : ExecNext s (.jmp v) (setIp (jumpTarget v) s)
  | jmn (v : Nat) {x : HostInt} (hacc : s.acc = some x) :
      ExecNext s (.jmn v) (if isNegative x then setIp (jumpTarget v) s else s)
  | hlt (v : Nat) : ExecNext s (.hlt v) (setIp (s.ip - 1) (halt .haltInstr s))
  | out (v : Nat) (r : LogRecord) : ExecNext s (.out v) (emit (.log r) s)

variable {silent atomic : Bool} {s t : State} {i : Instr}

theorem execNext_of_accWithMemory {g : HostInt → HostInt → Except Fault HostInt} {v : Nat} (hi : writesAcc i = true)
    (h : accWithMemory g v s = .next t) : ExecNext s i t := by
  obtain ⟨_, _, r, _, _, _, rfl⟩ := accWithMemory_eq_next.1 h
  exact .acc hi r

theorem execNext_of_accAlone {g : HostInt → HostInt} (hi : writesAcc i = true) (h : accAlone g s = .next t) :
    ExecNext s i t := by
  obtain ⟨_, _, rfl⟩ := accAlone_eq_next.1 h
  exact .acc hi _

/-- The inversion of `exec`, with the instruction. -/
theorem exec_next (h : exec i s = .next t) : ExecNext s i t := by
  cases i with
  | ldc v => cases h; exact .acc rfl _
  | ldv v => obtain ⟨m, _, rfl⟩ := execLdv_eq_next.1 h; exact .acc rfl m
  | ldiv v => obtain ⟨_, m, _, _, _, rfl⟩ := execLdiv_eq_next.1 h; exact .acc rfl m
  | add | and | or | xor | eql => exact execNext_of_accWithMemory rfl h
  | not | rar => exact execNext_of_accAlone rfl h
  | stv v =>
    obtain ⟨x, _, rfl⟩ := execStv_eq_next.1 h
    exact .store (a := directAddr v) rfl (inAddr_directAddr v) x
  | stiv v =>
    obtain ⟨p, x, hp, _, haddr, rfl⟩ := execStiv_eq_next.1 h
    exact .store (a := indirectAddr p) (by rw [storeAddress, hp]; rfl) haddr x
  | jmp v => cases h; exact .jmp v
  | jmn v => obtain ⟨x, hacc, rfl⟩ := execJmn_eq_next.1 h; exact .jmn v hacc
  | hlt v => cases h; exact .hlt v
  | out v => obtain ⟨m, _, rfl⟩ := execOut_eq_next.1 h; exact .out v _

/-- No instruction both writes the accumulator and stores (R21). -/
theorem storeAddress_of_writesAcc (hi : writesAcc i = true) (s : State) : storeAddress i s = none := by
  cases i with
  | ldc | ldv | ldiv | add | and | or | xor | eql | not | rar => rfl
  | stv | stiv | jmp | jmn | out | hlt => cases hi

/-- Settles O28: the other instructions write no accumulator, and the stores are among them. -/
theorem accumulatorInstructionsChangeOnlyAcc : Obligations.AccumulatorInstructionsChangeOnlyAcc := by
  intro i s t hi h
  cases exec_next h with
  | acc _ x => exact ⟨rfl, fun _ => rfl⟩
  | store ha _ x => rw [storeAddress_of_writesAcc hi] at ha; cases ha
  | jmp | jmn | hlt | out => cases hi

/-- Settles O29: the store is to the address of the meaning, which names one cell. -/
theorem storesChangeOnlyTheirCell : Obligations.StoresChangeOnlyTheirCell := by
  intro i s t a ha h
  cases exec_next h with
  | acc hi x => rw [storeAddress_of_writesAcc hi] at ha; cases ha
  | store ha' haddr x =>
    cases ha.symm.trans ha'
    obtain ⟨hframe, -, hothers⟩ := setMem_write_spec s a.toNat x rfl
    have hrange := inAddr_iff.1 haddr
    exact ⟨hframe, fun b hb => hothers b (by omega)⟩
  | jmp | jmn | hlt | out => cases ha

/-- A jump taken or not changes `ip` alone (43_control.md R130, R131). -/
theorem eq_of_exec_jump {v : Nat} (h : exec (.jmp v) s = .next t ∨ exec (.jmn v) s = .next t) :
    t = { s with ip := t.ip } := by
  obtain h | h := h
  · cases h; rfl
  · obtain ⟨x, -, rfl⟩ := execJmn_eq_next.1 h
    split <;> rfl

/-- Settles O30: the four frames by what those instructions answer, none of which touches the accumulator or memory. -/
theorem controlAndOutputLeaveAccAndMemory : Obligations.ControlAndOutputLeaveAccAndMemory := by
  refine ⟨fun v s t => eq_of_exec_jump, fun v s t h => ?hlt, fun v s t h => ?out, fun i s t hacc hstore h => ?rest⟩
  case hlt => cases h; rfl
  case out => obtain ⟨m, -, rfl⟩ := execOut_eq_next.1 h; rfl
  case rest =>
    cases exec_next h with
    | acc hi x => rw [hacc] at hi; cases hi
    | store ha _ x => rw [hstore] at ha; cases ha
    | jmp | hlt | out => exact ⟨rfl, fun _ => rfl⟩
    | jmn v =>
      rw [eq_of_exec_jump (.inr h)]
      exact ⟨rfl, fun _ => rfl⟩

/-- A dispatched step that answers a next state is its action's, but for deliveries and finalization (R93, R94). -/
theorem Dispatches.exists_of_stepWith {w : HostInt} (hd : Dispatches s w i) (h : stepWith silent atomic s = .next t) :
    ∃ u, exec i (actionState s) = .next u ∧ t = afterAction silent atomic s.ip w i u := by
  cases he : exec i (actionState s) with
  | next u =>
    rw [hd.stepWith_of_next he] at h
    cases h
    exact ⟨u, rfl, rfl⟩
  | fault f =>
    rw [hd.stepWith_of_fault he] at h
    cases h
  | refused r => exact absurd he (exec_ne_refused _ _ _)

/-- Settles O33: the action runs with `ip` one past the word, and only the jumps and HLT move it. -/
theorem eachInstructionLeavesIpAsTheRuleSays : Obligations.EachInstructionLeavesIpAsTheRuleSays := by
  intro silent atomic s t w i hd h
  obtain ⟨u, he, rfl⟩ := hd.exists_of_stepWith h
  have hfits := hd.wellFormed
  rw [afterAction_ip]
  cases exec_next he with
  | jmp v => exact zext20_of_lt (of_decide_eq_true hfits)
  | @jmn v x hacc =>
    have hv : jumpTarget v = v := zext20_of_lt (of_decide_eq_true hfits)
    have hx : s.acc = some x := hacc
    simp [hx, hv, isNegative, apply_ite State.ip, actionState]
  | hlt v => rfl
  | out v r => rfl
  | acc hi x =>
    cases i with
    | ldc | ldv | ldiv | add | and | or | xor | eql | not | rar => rfl
    | stv | stiv | jmp | jmn | out | hlt => cases hi
  | store ha _ x =>
    cases i with
    | stv | stiv => rfl
    | ldc | ldv | ldiv | add | and | or | xor | eql | not | rar | jmp | jmn | out | hlt => cases ha

end Sys2Proof.Machine
end

section
/-! Faults (60_exceptions.md R156 to R159): which instruction raises which fault and why, the steps that raise one, and what an
operation does on a state that keeps one. -/

namespace Sys2Proof.Machine

/-- The faults of the actions, each with its cause and its instructions (R157). -/
inductive ExecFault (s : State) : Instr → Fault → Prop where
  | accUnwritten {i} (hi : readsAcc i = true) (hacc : s.acc = none) : ExecFault s i .accUnwritten
  | undefinedDataRead {i a} (hi : readsOperandCell i = true) (ha : a < addrSpace) (hcell : Memory.read s.mem a = none) :
      ExecFault s i (.undefinedDataRead a)
  | dataAddressOutOfRange {i p} (hi : usesPointer i = true) (hp : inAddr p = false) :
      ExecFault s i (.dataAddressOutOfRange p)
  | hostRangeExceeded {v r} (hr : inHostRange r = false) : ExecFault s (.add v) (.hostRangeExceeded r)

variable {silent atomic : Bool} {s t : State} {i : Instr} {f : Fault}

/-- A two-operand instruction faults for want of an operand, or as its operation does. -/
theorem execFault_of_accWithMemory {g : HostInt → HostInt → Except Fault HostInt} {v : Nat}
    (hcells : readsOperandCell i = true) (hreads : readsAcc i = true)
    (hg : ∀ x m, g x m = .error f → ExecFault s i f) (h : accWithMemory g v s = .fault f) : ExecFault s i f := by
  obtain ⟨hcell, rfl⟩ | ⟨m, -, ⟨hacc, rfl⟩ | ⟨x, -, hx⟩⟩ := accWithMemory_eq_fault.1 h
  · exact .undefinedDataRead hcells (zext20_lt v) hcell
  · exact .accUnwritten hreads hacc
  · exact hg x m hx

/-- The addition faults on its exact sum alone (42_alu.md R120). -/
theorem execFault_of_hostAdd {v : Nat} {x m : HostInt} (h : hostAdd x m = .error f) : ExecFault s (.add v) f := by
  obtain ⟨r, hr, -⟩ | ⟨hrange, hfault⟩ := hostAdd_cases x m
  · rw [hr] at h; cases h
  · rw [hfault] at h; cases h; exact .hostRangeExceeded hrange

/-- The inversion of a faulting action. -/
theorem exec_fault (h : exec i s = .fault f) : ExecFault s i f := by
  cases i with
  | ldc | jmp | hlt => cases h
  | ldv v => obtain ⟨hcell, rfl⟩ := execLdv_eq_fault.1 h; exact .undefinedDataRead rfl (zext20_lt v) hcell
  | out v => obtain ⟨hcell, rfl⟩ := execOut_eq_fault.1 h; exact .undefinedDataRead rfl (zext20_lt v) hcell
  | stv v => obtain ⟨hacc, rfl⟩ := execStv_eq_fault.1 h; exact .accUnwritten rfl hacc
  | jmn v => obtain ⟨hacc, rfl⟩ := execJmn_eq_fault.1 h; exact .accUnwritten rfl hacc
  | not | rar => obtain ⟨hacc, rfl⟩ := accAlone_eq_fault.1 h; exact .accUnwritten rfl hacc
  | add v => exact execFault_of_accWithMemory rfl rfl (fun _ _ => execFault_of_hostAdd) h
  | and | or | xor | eql => exact execFault_of_accWithMemory rfl rfl (fun _ _ hg => by cases hg) h
  | ldiv v =>
    obtain ⟨hcell, rfl⟩ | ⟨p, -, ⟨haddr, hcell, rfl⟩ | ⟨haddr, rfl⟩⟩ := execLdiv_eq_fault.1 h
    · exact .undefinedDataRead rfl (zext20_lt v) hcell
    · exact .undefinedDataRead rfl (toNat_lt_of_inAddr haddr) hcell
    · exact .dataAddressOutOfRange rfl haddr
  | stiv v =>
    obtain ⟨hcell, rfl⟩ | ⟨p, -, ⟨hacc, rfl⟩ | ⟨x, -, haddr, rfl⟩⟩ := execStiv_eq_fault.1 h
    · exact .undefinedDataRead rfl (zext20_lt v) hcell
    · exact .accUnwritten rfl hacc
    · exact .dataAddressOutOfRange rfl haddr

/-- Settles O39: the faults an action raises are `ExecFault`, whose ranges are written out. -/
theorem eachFaultHasItsCauseAndInstructions : Obligations.EachFaultHasItsCauseAndInstructions := by
  intro i s f h
  cases exec_fault h with
  | accUnwritten hi hacc => exact ⟨hi, hacc⟩
  | undefinedDataRead hi ha hcell => exact ⟨hi, ha, hcell⟩
  | @dataAddressOutOfRange _ p hi hp =>
    have hout : ¬(0 ≤ p ∧ p ≤ 0xFFFFF) := by rw [← inAddr_iff, hp]; decide
    exact ⟨hi, by omega⟩
  | @hostRangeExceeded v r hr =>
    have hout : ¬(-2 ^ 31 ≤ r ∧ r ≤ 2 ^ 31 - 1) := by rw [← inHostRange_iff, hr]; decide
    exact ⟨⟨v, rfl⟩, by omega⟩

/-- Below the ceiling a word outside `Word24` faults (30_encoding.md R68, D11). -/
theorem stepWith_of_wordOutOfRange {w : HostInt} (hs : s.fault = none) (hc : s.stepCount + 1 < s.params.stepCeiling)
    (hf : fetch s s.ip = some w) (hw : w.toInt < 0 ∨ 0xFFFFFF < w.toInt) :
    stepWith silent atomic s = .fault (.wordOutOfRange w.toInt) := by
  rw [stepWith_word hs hc hf, runWord, (onlyCellsInWord24AreDecoded w).1 hw]

/-- Settles O38: the two ways a step faults, and each of them does. -/
theorem faultsComeAfterTheCeilingAndTheFetch : Obligations.FaultsComeAfterTheCeilingAndTheFetch := by
  intro silent atomic s f hs
  constructor
  · intro h
    cases stepWith_fault hs h with
    | @word w hc hf hd hw =>
      have hout : ¬(0 ≤ w.toInt ∧ w.toInt ≤ 0xFFFFFF) := by
        rw [← inWord24_iff, (decodeCell_wordOutOfRange.1 hd).1]; decide
      exact ⟨hc, w, hf, .inl ⟨by omega, hw⟩⟩
    | @action w i hc hf hd he => exact ⟨hc, w, hf, .inr ⟨i, hd, he⟩⟩
  · rintro ⟨hc, w, hf, ⟨hw, rfl⟩ | ⟨i, hd, he⟩⟩
    · exact stepWith_of_wordOutOfRange hs hc hf hw
    · exact Dispatches.stepWith_of_fault ⟨hs, hc, hf, hd⟩ he

theorem Dispatches.stepWith_ne_refused {w : HostInt} (hd : Dispatches s w i) (r : Refusal) :
    stepWith silent atomic s ≠ .refused r := by
  cases he : exec i (actionState s) with
  | next u => rw [hd.stepWith_of_next he]; nofun
  | fault f => rw [hd.stepWith_of_fault he]; nofun
  | refused r' => exact absurd he (exec_ne_refused _ _ _)

/-- No step is refused: short of dispatching, it answers the kept fault, halts, or faults on the word. -/
theorem stepWith_ne_refused (silent atomic : Bool) (s : State) (r : Refusal) : stepWith silent atomic s ≠ .refused r := by
  cases hs : s.fault with
  | some f => rw [stepWith, hs]; nofun
  | none =>
    rcases Nat.lt_or_ge (s.stepCount + 1) s.params.stepCeiling with hc | hc
    · cases hf : fetch s s.ip with
      | none => rw [stepWith_undefinedFetch hs hc hf]; nofun
      | some w =>
        cases hd : decodeCell w with
        | ok i => exact Dispatches.stepWith_ne_refused ⟨hs, hc, hf, hd⟩ r
        | error e => cases e <;> (rw [stepWith_word hs hc hf, runWord, hd]; nofun)
    · rw [stepWith_ceiling hs hc]; nofun

/-- Settles O40: every action answers a next state or a fault, and so does every step. -/
theorem noInstructionIsRefused : Obligations.NoInstructionIsRefused := ⟨exec_ne_refused, stepWith_ne_refused⟩

theorem start_of_fault (hs : s.fault = some f) : start s = .fault f := by rw [start, hs]

/-- On a state with a fault every operation answers it (R156). -/
theorem perform_of_fault (op : HostOp) (hs : s.fault = some f) : perform op s = .fault f := by
  cases op with
  | start => exact start_of_fault hs
  | step silent atomic => rw [perform, stepWith, hs]
  | run => rw [perform, run, start_of_fault hs]
  | startCooperative => rw [perform, startCooperative, start_of_fault hs]
  | tick => rw [perform, tick, hs]
  | cancel => rw [perform, cancel, hs]

/-- The machine after an operation is what its answer settles, but for `run`, whose loop settles each step. -/
theorem afterOp_eq_settle {op : HostOp} (hop : op ≠ .run) (s : State) : afterOp op s = settle s (perform op s) := by
  cases op with
  | run => exact absurd rfl hop
  | start | step | startCooperative | tick | cancel => rfl

/-- The first fault is kept (10_state.md R31). -/
theorem recordFault_of_fault {g : Fault} (hs : s.fault = some f) : recordFault g s = s := by
  rw [recordFault, hs, Option.some_or, ← hs]

/-- On a state with a fault every operation leaves the machine (R156). -/
theorem afterOp_of_fault (op : HostOp) (hs : s.fault = some f) : afterOp op s = s := by
  by_cases hop : op = .run
  · rw [hop, afterOp, afterRun, start_of_fault hs]
  · rw [afterOp_eq_settle hop, perform_of_fault op hs]
    exact recordFault_of_fault hs

/-- Settles O56: the kept fault is every operation's answer, and a new one is recorded in the state the step was asked of. -/
theorem faultIsRecordedAndSticky : Obligations.FaultIsRecordedAndSticky := by
  refine ⟨fun s f op hs => ⟨perform_of_fault op hs, afterOp_of_fault op hs⟩, fun silent atomic s f hs h => ?_⟩
  rw [afterOp, h, settle, recordFault, hs, Option.none_or]

end Sys2Proof.Machine
end

section
/-! Memory over a store and over a step (20_memory.md R43 to R45, R51, R53; 70_reset_and_hazards.md R174). -/

namespace Sys2Proof.Machine

variable {s : State}

theorem memRead_store_other {a b : Int} (v : HostInt) (ha : inAddr a = true) (hb : b ≠ a) :
    memRead (setMem (Memory.write s.mem a.toNat v) s) b = memRead s b := by
  unfold memRead
  split
  case isFalse => rfl
  case isTrue hrange =>
    have hcell : b.toNat ≠ a.toNat := by have ha := inAddr_iff.1 ha; have hb := inAddr_iff.1 hrange; omega
    rw [setMem_mem, Memory.read_write_other _ _ hcell]

theorem fetch_store_other {a b : Nat} (v : HostInt) (hb : b ≠ a) :
    fetch (setMem (Memory.write s.mem a v) s) b = fetch s b := by
  rw [fetch, setMem_mem, Memory.read_write_other _ _ hb, fetch]

/-- Settles O10: a write that succeeds is a store inside the address space. -/
theorem storedWordIsReadAndFetchedBack : Obligations.StoredWordIsReadAndFetchedBack := by
  intro s t a v h
  obtain ⟨ha, rfl⟩ := memWrite_eq_ok.1 h
  exact ⟨memRead_eq_ok.2 ⟨ha, Memory.read_write_same ..⟩,
    fetch_eq_some.2 ⟨toNat_lt_of_inAddr ha, Memory.read_write_same ..⟩,
    fun _ => memRead_store_other v ha, fun _ => fetch_store_other v, rfl⟩

/-- Settles O11: the store is to the address the fetch has advanced `ip` to, and no end of a step touches memory. -/
theorem storeOverNextInstructionIsFetchedNext : Obligations.StoreOverNextInstructionIsFetchedNext := by
  intro s w x hd hacc
  have hnext : s.ip + 1 < addrSpace := of_decide_eq_true hd.wellFormed
  have he : exec (.stv (s.ip + 1)) (actionState s) =
      .next (setMem (Memory.write s.mem (s.ip + 1) x) (actionState s)) :=
    execStv_eq_next.2 ⟨x, hacc, by rw [zext20_of_lt hnext]; rfl⟩
  refine ⟨_, hd.stepWith_of_next he, afterAction_ip .., ?_⟩
  rw [afterAction_ip, fetch_congr (afterAction_mem ..)]
  exact fetch_eq_some.2 ⟨hnext, Memory.read_write_same ..⟩

end Sys2Proof.Machine
end

section
/-! What a step can change (40_step_engine.md R90): the fields it leaves, the deliveries it only adds to, and the cells and the
accumulator it never takes away. -/

namespace Sys2Proof.Machine

variable {silent atomic : Bool} {s t : State}

/-- The fields an action can change. -/
theorem ActionEffect.frame (h : ActionEffect s t) :
    t = { s with
      acc := t.acc, ip := t.ip, mem := t.mem, running := t.running, haltReason := t.haltReason, out := t.out } := by
  cases h with
  | acc | jump | none | store | halt | log => rfl

/-- The fields a step can change, and its count. -/
theorem StepEnd.frame (h : StepEnd silent atomic s t) :
    t = { s with
      acc := t.acc, ip := t.ip, mem := t.mem, running := t.running, haltReason := t.haltReason, out := t.out
      stepCount := s.stepCount + 1, finalized := t.finalized } := by
  cases h with
  | ceiling => rw [tripCeiling, finalizeUnless_emitLog_halt]; rfl
  | undefinedFetch => rw [haltUndefinedFetch, finalizeUnless_emitLog_halt]; rfl
  | invalidCommand => rfl
  | action _ _ _ he => rw [afterAction_eq, (exec_effect he).frame]; rfl

/-- Settles O34: the frame of a step, field by field. -/
theorem everyStepCountsOne : Obligations.EveryStepCountsOne := by
  intro silent atomic s t h
  obtain ⟨hs, hend⟩ := stepWith_end h
  rw [hend.frame]
  exact ⟨rfl, hs, hs, rfl, rfl, rfl, rfl⟩

theorem mapNext_eq_next {g : State → State} {o : Host.Outcome State Fault Refusal} :
    mapNext g o = .next t ↔ ∃ u, o = .next u ∧ t = g u := by
  cases o <;> simp [eq_comm]

/-- A step delivers behind what was delivered before: it is the step of the machine without its past, put behind it. -/
theorem stepWith_out (h : stepWith silent atomic s = .next t) : ∃ es, t.out = s.out ++ es := by
  rw [← withPast_withoutPast s, stepWith_withPast, mapNext_eq_next] at h
  obtain ⟨u, -, rfl⟩ := h
  exact ⟨u.out, rfl⟩

/-- Settles O43: no step reads the deliveries. -/
theorem channelsOnlyGrow : Obligations.ChannelsOnlyGrow := fun _ _ _ _ => stepWith_out

/-- What `s` defines, `t` defines: cells (20_memory.md R42) and the accumulator (10_state.md R22). -/
def KeepsDefined (s t : State) : Prop :=
  (∀ a, Memory.read s.mem a ≠ none → Memory.read t.mem a ≠ none) ∧ (s.acc ≠ none → t.acc ≠ none)

theorem keepsDefined_of_eq (hmem : t.mem = s.mem) (hacc : t.acc = s.acc) : KeepsDefined s t := by
  rw [KeepsDefined, hmem, hacc]
  exact ⟨fun _ => id, id⟩

/-- No action takes a value away: it writes the accumulator, or a cell. -/
theorem ActionEffect.keepsDefined (h : ActionEffect s t) : KeepsDefined s t := by
  cases h with
  | acc x => exact ⟨fun _ => id, fun _ => nofun⟩
  | store a x ha =>
    refine ⟨fun b hb => ?_, id⟩
    rw [setMem_mem, Memory.read_write]
    split
    · nofun
    · exact hb
  | jump | none | halt | log => exact keepsDefined_of_eq rfl rfl

theorem StepEnd.keepsDefined (h : StepEnd silent atomic s t) : KeepsDefined s t := by
  cases h with
  | ceiling => exact keepsDefined_of_eq (by simp [tripCeiling]) (by simp [tripCeiling])
  | undefinedFetch => exact keepsDefined_of_eq (by simp [haltUndefinedFetch]) (by simp [haltUndefinedFetch])
  | invalidCommand => exact keepsDefined_of_eq rfl rfl
  | action _ _ _ he =>
    obtain ⟨hmem, hacc⟩ := (exec_effect he).keepsDefined
    rw [KeepsDefined, afterAction_mem, afterAction_acc]
    exact ⟨hmem, hacc⟩

/-- An action of a step faults for want of a value in the accumulator only where the step found none (R22, R157). -/
theorem acc_eq_none_of_stepWith (hs : s.fault = none) (h : stepWith silent atomic s = .fault .accUnwritten) :
    s.acc = none := by
  cases stepWith_fault hs h with
  | word _ _ _ hw => cases hw
  | action _ _ _ he =>
    cases exec_fault he with
    | accUnwritten _ hacc => exact hacc

/-- Settles O12: no end of a step takes a value away, and a written accumulator is no cause of a fault. -/
theorem definedCellsStayDefined : Obligations.DefinedCellsStayDefined :=
  ⟨fun _ _ _ _ h => (stepWith_end h).2.keepsDefined,
    fun _ _ _ hs hacc h => hacc (acc_eq_none_of_stepWith hs h)⟩

end Sys2Proof.Machine
end

section
/-! RAR on a word (42_alu.md R126): on 24 bits it is a rotation, so twenty-four of them are none. -/

namespace Sys2Proof.Machine

variable {x : HostInt}

/-- Above `Word24` a word has no bits. -/
theorem getLsbD_of_lt_word24 (hx : x.toNat < 2 ^ 24) {i : Nat} (hi : 24 ≤ i) : x.getLsbD i = false :=
  Nat.testBit_lt_two_pow (hx.trans_le (Nat.pow_le_pow_right (by decide) hi))

/-- Bit `i` of RAR's result is the next bit up, cyclically: a word has no bit 24 to leak (R126, C4). -/
theorem getLsbD_hostRar (hx : x.toNat < 2 ^ 24) {i : Nat} (hi : i < 24) :
    (hostRar x).getLsbD i = x.getLsbD ((i + 1) % 24) := by
  have hleak : x.getLsbD 24 = false := getLsbD_of_lt_word24 hx (le_refl 24)
  rw [hostRar_eq_cons, BitVec.getLsbD_setWidth, BitVec.getLsbD_cons, BitVec.getLsbD_extractLsb']
  by_cases htop : i = 23
  · subst htop
    rw [hleak]
    rfl
  · have hnext : (i + 1) % 24 = 1 + i := by omega
    have hlow : i < 23 := by omega
    have hwide : i < 32 := by omega
    simp [htop, hnext, hlow, hwide]

/-- RARs of a word are rotations by their number (R126). -/
theorem getLsbD_iterate_hostRar (n : Nat) (hx : x.toNat < 2 ^ 24) {i : Nat} (hi : i < 24) :
    (hostRar^[n] x).getLsbD i = x.getLsbD ((i + n) % 24) := by
  induction n generalizing x with
  | zero => rw [Function.iterate_zero, id, Nat.add_zero, Nat.mod_eq_of_lt hi]
  | succ n ih =>
    rw [Function.iterate_succ_apply, ih (hostRar_lt x), getLsbD_hostRar hx (Nat.mod_lt _ (by decide))]
    congr 1
    omega

/-- Settles O23: below bit 24 the rotation by 24 is none, and above it there is nothing before or after. -/
theorem twentyFourRotationsGiveTheWordBack : Obligations.TwentyFourRotationsGiveTheWordBack := by
  intro x hx
  refine BitVec.eq_of_getLsbD_eq fun i _ => ?_
  rcases Nat.lt_or_ge i 24 with hi | hi
  · rw [getLsbD_iterate_hostRar 24 hx hi, Nat.add_mod_right, Nat.mod_eq_of_lt hi]
  · have hword : (hostRar^[24] x).toNat < 2 ^ 24 := by
      rw [Function.iterate_succ_apply']
      exact hostRar_lt _
    rw [getLsbD_of_lt_word24 hx hi, getLsbD_of_lt_word24 hword hi]

end Sys2Proof.Machine
end

section
/-! Noninterference (10_state.md R33; 40_step_engine.md R90, R101, R109): states related as a statement says stay so related, or
fault alike.  Said once for the actions and once for the step, over any relation their primitives keep. -/

namespace Sys2Proof.Machine

/-- A relation the primitives of the actions keep, between states that show a program the same. -/
structure ActionRelation (R : State → State → Prop) : Prop where
  sees {s t} : R s t → sameProgramState s t
  setAcc {s t} (x : HostInt) : R s t → R (setAcc x s) (setAcc x t)
  setIp {s t} (a : Nat) : R s t → R (setIp a s) (setIp a t)
  setMem {s t} (m : Memory) : R s t → R (setMem m s) (setMem m t)
  halt {s t} (r : HaltReason) : R s t → R (halt r s) (halt r t)
  log {s t} (r : LogRecord) : R s t → R (emit (.log r) s) (emit (.log r) t)

/-- A relation that also the ends of a step keep, taken with the flags `silent`, `atomic` on the one side and `silent'`,
`atomic'` on the other. -/
structure StepRelation (silent atomic silent' atomic' : Bool) (R : State → State → Prop) : Prop
    extends ActionRelation R where
  fault {s t} : R s t → t.fault = s.fault
  countStep {s t} : R s t → R (countStep s) (countStep t)
  ceiling {s t} : R s t → ceilingReached t = ceilingReached s
  afterUndefinedFetch {s t} : R s t → ipAfterUndefinedFetch t = ipAfterUndefinedFetch s
  finalizeUnless {s t} : R s t → R (finalizeUnless atomic s) (finalizeUnless atomic' t)
  afterAction {s t} (a : Nat) (w : HostInt) (i : Instr) : R s t →
    R (afterAction silent atomic a w i s) (afterAction silent' atomic' a w i t)

variable {R : State → State → Prop} {s t : State} {α : Type}

/-- Sequences of primitives that read the same and go on alike agree (60_exceptions.md R159). -/
theorem finish_bind_agree {x y : Except Fault α} {k l : α → Except Fault State} (hxy : y = x)
    (h : ∀ a, outcomesAgree R (finish (k a)) (finish (l a))) : outcomesAgree R (finish (x >>= k)) (finish (y >>= l)) := by
  subst hxy
  cases y with
  | ok a => exact h a
  | error f => exact rfl

/-! What the actions read is the program state. -/

theorem readAcc_congr (h : sameProgramState s t) : readAcc t = readAcc s := by
  obtain ⟨hacc, -, -⟩ := h
  rw [readAcc, hacc, readAcc]

theorem memRead_congr (h : sameProgramState s t) (a : Int) : memRead t a = memRead s a := by
  obtain ⟨-, -, hmem⟩ := h
  rw [memRead, hmem, memRead]

theorem readDirect_congr (h : sameProgramState s t) (v : Nat) : readDirect v t = readDirect v s := memRead_congr h _

section
variable (hR : ActionRelation R) (h : R s t)
include hR h

theorem memWrite_agree (a : Int) (x : HostInt) : outcomesAgree R (finish (memWrite s a x)) (finish (memWrite t a x)) := by
  obtain ⟨-, -, hmem⟩ := hR.sees h
  unfold memWrite
  split
  · rw [hmem]; exact hR.setMem _ h
  · exact rfl

theorem accWithMemory_agree (g : HostInt → HostInt → Except Fault HostInt) (v : Nat) :
    outcomesAgree R (accWithMemory g v s) (accWithMemory g v t) :=
  finish_bind_agree (readDirect_congr (hR.sees h) v) fun _ =>
    finish_bind_agree (readAcc_congr (hR.sees h)) fun _ => finish_bind_agree rfl fun r => hR.setAcc r h

theorem accAlone_agree (g : HostInt → HostInt) : outcomesAgree R (accAlone g s) (accAlone g t) :=
  finish_bind_agree (readAcc_congr (hR.sees h)) fun _ => hR.setAcc _ h

theorem execJmn_agree (v : Nat) : outcomesAgree R (execJmn v s) (execJmn v t) := by
  refine finish_bind_agree (readAcc_congr (hR.sees h)) fun x => ?_
  cases isNegative x with
  | true => exact hR.setIp _ h
  | false => exact h

/-- The actions keep such a relation, or fault alike. -/
theorem exec_agree (i : Instr) : outcomesAgree R (exec i s) (exec i t) := by
  have hsees := hR.sees h
  cases i with
  | ldc v => exact hR.setAcc _ h
  | ldv v => exact finish_bind_agree (readDirect_congr hsees v) fun m => hR.setAcc m h
  | stv v => exact finish_bind_agree (readAcc_congr hsees) fun x => memWrite_agree hR h _ x
  | add | and | or | xor | eql => exact accWithMemory_agree hR h _ _
  | not | rar => exact accAlone_agree hR h _
  | jmp v => exact hR.setIp _ h
  | jmn v => exact execJmn_agree hR h v
  | ldiv v =>
    exact finish_bind_agree (readDirect_congr hsees v) fun p =>
      finish_bind_agree (memRead_congr hsees _) fun m => hR.setAcc m h
  | stiv v =>
    exact finish_bind_agree (readDirect_congr hsees v) fun _ =>
      finish_bind_agree (readAcc_congr hsees) fun x => memWrite_agree hR h _ x
  | out v => exact finish_bind_agree (readDirect_congr hsees v) fun m => hR.log _ h
  | hlt v =>
    obtain ⟨-, hip, -⟩ := hsees
    have hhalt : R (setIp (s.ip - 1) (halt .haltInstr s)) (setIp (t.ip - 1) (halt .haltInstr t)) := by
      rw [hip]; exact hR.setIp _ (hR.halt _ h)
    exact hhalt

end

theorem sameProgramState_actionRelation : ActionRelation sameProgramState where
  sees h := h
  setAcc _ h := ⟨rfl, h.2⟩
  setIp _ h := ⟨h.1, rfl, h.2.2⟩
  setMem _ h := ⟨h.1, h.2.1, rfl⟩
  halt _ h := h
  log _ h := h

/-- Settles O45: the program state itself is such a relation. -/
theorem actionsSeeOnlyTheProgramState : Obligations.ActionsSeeOnlyTheProgramState := fun i _ _ h =>
  exec_agree sameProgramState_actionRelation h i

section
variable {silent atomic silent' atomic' : Bool} (hR : StepRelation silent atomic silent' atomic' R)
include hR

theorem dispatch_agree (h : R s t) (w : HostInt) (i : Instr) :
    outcomesAgree R (dispatch silent atomic w i s) (dispatch silent' atomic' w i t) := by
  obtain ⟨-, hip, -⟩ := hR.sees h
  have hexec := exec_agree hR.toActionRelation (hR.setIp (s.ip + 1) h) i
  unfold dispatch
  rw [hip]
  cases hs : exec i (setIp (s.ip + 1) s) <;> cases ht : exec i (setIp (s.ip + 1) t) <;> rw [hs, ht] at hexec
  case next.next => exact hR.afterAction _ w i hexec
  all_goals exact hexec

theorem runWord_agree (h : R s t) (w : HostInt) :
    outcomesAgree R (runWord silent atomic w s) (runWord silent' atomic' w t) := by
  obtain ⟨-, hip, -⟩ := hR.sees h
  unfold runWord
  split
  · exact rfl
  · rename_i code _
    have hhalt : R (haltInvalidCommand code s) (haltInvalidCommand code t) := by
      unfold haltInvalidCommand
      rw [hip]; exact hR.log _ (hR.halt _ (hR.setIp _ h))
    exact hhalt
  · exact dispatch_agree hR h w _

theorem fetchAndRun_agree (h : R s t) :
    outcomesAgree R (fetchAndRun silent atomic s) (fetchAndRun silent' atomic' t) := by
  obtain ⟨-, hip, hmem⟩ := hR.sees h
  unfold fetchAndRun
  rw [hip, fetch_congr hmem]
  split
  · have hhalt : R (haltUndefinedFetch atomic s) (haltUndefinedFetch atomic' t) := by
      unfold haltUndefinedFetch
      rw [hip, hR.afterUndefinedFetch h]
      exact hR.finalizeUnless (hR.log _ (hR.halt _ (hR.setIp _ h)))
    exact hhalt
  · exact runWord_agree hR h _

/-- The step keeps such a relation, or faults alike. -/
theorem stepWith_agree (h : R s t) :
    outcomesAgree R (stepWith silent atomic s) (stepWith silent' atomic' t) := by
  have hcount := hR.countStep h
  unfold stepWith
  rw [hR.fault h]
  split
  · exact rfl
  · unfold checkAndRun
    rw [hR.ceiling hcount]
    split
    · exact hR.finalizeUnless (hR.log _ (hR.halt _ hcount))
    · exact fetchAndRun_agree hR hcount

end

/-- `t` is `s` but for the registered channels, deliveries and the finalized flag; that too is as in `s` if `same`. -/
def SameButDeliveries (same : Prop) (s t : State) : Prop :=
  t = { s with registered := t.registered, out := t.out, finalized := t.finalized } ∧
    (same → t.finalized = s.finalized)

/-- Steps whose `atomic` flags agree finalize alike. -/
theorem sameButDeliveries_stepRelation (silent atomic silent' atomic' : Bool) :
    StepRelation silent atomic silent' atomic' (SameButDeliveries (atomic' = atomic)) where
  sees h := by rw [h.1]; exact ⟨rfl, rfl, rfl⟩
  setAcc _ h := ⟨by rw [h.1]; rfl, h.2⟩
  setIp _ h := ⟨by rw [h.1]; rfl, h.2⟩
  setMem _ h := ⟨by rw [h.1]; rfl, h.2⟩
  halt _ h := ⟨by rw [h.1]; rfl, h.2⟩
  log _ h := ⟨by rw [h.1]; rfl, h.2⟩
  countStep h := ⟨by rw [h.1]; rfl, h.2⟩
  fault h := by rw [h.1]
  ceiling h := by rw [h.1]; rfl
  afterUndefinedFetch h := by rw [h.1]; rfl
  finalizeUnless {s t} h := by
    refine ⟨by rw [h.1, finalizeUnless_eq, finalizeUnless_eq], fun hatomic => ?_⟩
    rw [finalizeUnless_finalized, finalizeUnless_finalized, h.2 hatomic, hatomic]
  afterAction {s t} a w i h := by
    have hrunning : t.running = s.running := by rw [h.1]
    refine ⟨by rw [h.1, afterAction_eq, afterAction_eq], fun hatomic => ?_⟩
    rw [afterAction_finalized, afterAction_finalized, h.2 hatomic, hrunning, hatomic]

theorem outcomesAgree_mono {R' : State → State → Prop} {o o' : Host.Outcome State Fault Refusal}
    (h : outcomesAgree R o o') (hR : ∀ t u, o = .next t → o' = .next u → R t u → R' t u) : outcomesAgree R' o o' := by
  cases o <;> cases o'
  case next.next t u => exact hR t u rfl rfl h
  all_goals exact h

/-- No step registers a channel (R109). -/
theorem stepWith_registered {silent atomic : Bool} (h : stepWith silent atomic s = .next t) :
    t.registered = s.registered := by
  rw [(stepWith_end h).2.frame]

/-- Settles O46: a state and itself, and neither step registers a channel. -/
theorem stepFlagsChangeOnlyChannelsAndFinalization : Obligations.StepFlagsChangeOnlyChannelsAndFinalization := by
  intro silent atomic silent' atomic' s
  have hagree := stepWith_agree (sameButDeliveries_stepRelation silent atomic silent' atomic') (s := s) ⟨rfl, fun _ => rfl⟩
  refine outcomesAgree_mono hagree fun t u ht hu h => ?_
  have hchannels : u.registered = t.registered := (stepWith_registered hu).trans (stepWith_registered ht).symm
  rw [← hchannels]
  exact h.1

/-- Settles O47: a state and the same with the channels `ch`, which the step leaves registered. -/
theorem unregisteredChannelsChangeNoState : Obligations.UnregisteredChannelsChangeNoState := by
  intro silent atomic s ch
  have hagree := stepWith_agree (sameButDeliveries_stepRelation silent atomic silent atomic)
    (t := { s with registered := ch }) ⟨rfl, fun _ => rfl⟩
  refine outcomesAgree_mono hagree fun t u _ hu h => ?_
  have hchannels : u.registered = ch := stepWith_registered hu
  rw [← hchannels, ← h.2 rfl]
  exact h.1

end Sys2Proof.Machine
end

section
/-! Starts and ticks (40_step_engine.md R95, R97). -/

namespace Sys2Proof.Machine

/-- Settles O51: a start answers one literal state, or the kept fault. -/
theorem startSetsRunningAndNothingElse : Obligations.StartSetsRunningAndNothingElse := by
  intro s
  refine ⟨start_of_fault_eq_none, fun hs => ?_⟩
  obtain ⟨f, hf⟩ := Option.ne_none_iff_exists'.1 hs
  exact ⟨f, start_of_fault hf⟩

/-- A tick of a scheduled machine (R97). -/
theorem tick_of_scheduled {s : State} (hs : s.fault = none) (hsched : s.scheduled = true) : tick s = tickRunning s := by
  rw [tick, hs, if_pos hsched]

theorem unscheduleIfHalted_eq (s : State) :
    unscheduleIfHalted s = { s with scheduled := if s.running then s.scheduled else false } := by
  unfold unscheduleIfHalted
  split <;> rfl

/-- Settles O52: the tick's cases, by the schedule, the run flag and what its step answers. -/
theorem tickStepsOnlyWhileScheduledAndRunning : Obligations.TickStepsOnlyWhileScheduledAndRunning := by
  intro s hs
  refine ⟨?start, fun hsched => ?idle, fun hsched hrun => ?halted,
    fun hsched hrun => ⟨fun t hstep => ?step, fun f hstep => ?fault⟩⟩
  case start => rw [startCooperative, start_of_fault_eq_none hs]; rfl
  case idle => rw [tick, hs, if_neg (Bool.eq_false_iff.1 hsched)]
  case halted =>
    have hhalted : ¬s.running = true := Bool.eq_false_iff.1 hrun
    rw [tick_of_scheduled hs hsched, tickRunning, if_neg hhalted, unscheduleIfHalted_eq, if_neg hhalted]
  case step => rw [tick_of_step hs hsched hrun hstep, unscheduleIfHalted_eq]
  case fault => rw [tick_of_scheduled hs hsched, tickRunning, if_pos hrun, hstep]

end Sys2Proof.Machine
end

section
/-! The completion channel (40_step_engine.md R103, R104): a finalization notifies it, once; everything else that is no start
leaves it and the finalized flag. -/

namespace Sys2Proof.Machine

/-- From `s` to `t` the completion channel and the finalized flag are left, or the run is finalized and notified of at most
once. -/
inductive AtMostOneCompletion (s t : State) : Prop where
  | quiet (hflag : t.finalized = s.finalized) (hcount : completions t = completions s)
  | finalizes (hs : s.finalized = false) (ht : t.finalized = true) (hcount : completions t ≤ completions s + 1)

variable {silent atomic : Bool} {s t u : State}

theorem AtMostOneCompletion.refl (s : State) : AtMostOneCompletion s s := .quiet rfl rfl

/-- A finalized run is not finalized again, so the completions do not add up. -/
theorem AtMostOneCompletion.trans (hst : AtMostOneCompletion s t) (htu : AtMostOneCompletion t u) :
    AtMostOneCompletion s u := by
  cases hst with
  | quiet hflag hcount =>
    cases htu with
    | quiet hflag' hcount' => exact .quiet (hflag'.trans hflag) (hcount'.trans hcount)
    | finalizes ht hu hcount' => exact .finalizes (hflag.symm.trans ht) hu (hcount ▸ hcount')
  | finalizes hs ht hcount =>
    cases htu with
    | quiet hflag' hcount' => exact .finalizes hs (hflag'.trans ht) (hcount'.trans_le hcount)
    | finalizes ht' _ _ => cases ht.symm.trans ht'

theorem AtMostOneCompletion.of_eq (hflag : t.finalized = s.finalized) (hout : t.out = s.out) : AtMostOneCompletion s t :=
  .quiet hflag (by rw [completions, hout, completions])

/-- A change of fields other than the flag and the deliveries may come before. -/
theorem AtMostOneCompletion.of_start (htu : AtMostOneCompletion t u) (hflag : t.finalized = s.finalized)
    (hout : t.out = s.out) : AtMostOneCompletion s u :=
  (AtMostOneCompletion.of_eq hflag hout).trans htu

theorem completions_emit {e : Event} (he : e ≠ .completion) (s : State) : completions (emit e s) = completions s := by
  have hnone : (delivered s e).count .completion = 0 := by
    unfold delivered
    split <;> simp [he]
  rw [completions, emit_out, List.count_append, hnone, completions, Nat.add_zero]

theorem completions_emit_le (e : Event) (s : State) : completions (emit e s) ≤ completions s + 1 := by
  have hone : (delivered s e).count .completion ≤ 1 := by
    refine List.count_le_length.trans ?_
    unfold delivered
    split <;> simp
  rw [completions, emit_out, List.count_append, completions]
  omega

theorem atMostOneCompletion_emit {e : Event} (he : e ≠ .completion) (s : State) : AtMostOneCompletion s (emit e s) :=
  .quiet rfl (completions_emit he s)

/-- Finalization is where the completion is sent (R103, R104). -/
theorem atMostOneCompletion_finalize (s : State) : AtMostOneCompletion s (finalize s) := by
  cases hs : s.finalized with
  | true => rw [finalize, if_pos hs]; exact .refl s
  | false =>
    refine .finalizes hs (finalize_finalized s) ?_
    rw [finalize, if_neg (Bool.eq_false_iff.1 hs)]
    refine (completions_emit_le _ _).trans_eq ?_
    rw [emitLog_eq, completions_emit (by nofun)]
    rfl

theorem atMostOneCompletion_finalizeUnless (atomic : Bool) (s : State) :
    AtMostOneCompletion s (finalizeUnless atomic s) := by
  cases atomic with
  | true => exact .refl s
  | false => exact atMostOneCompletion_finalize s

theorem atMostOneCompletion_traceUnless (silent : Bool) (a : Nat) (w : HostInt) (i : Instr) (s : State) :
    AtMostOneCompletion s (traceUnless silent a w i s) := by
  unfold traceUnless
  split
  · exact .refl s
  · exact atMostOneCompletion_emit (by nofun) s

theorem atMostOneCompletion_finalizeIfHalted (atomic : Bool) (s : State) :
    AtMostOneCompletion s (finalizeIfHalted atomic s) := by
  unfold finalizeIfHalted
  split
  · exact .refl s
  · exact atMostOneCompletion_finalizeUnless atomic s

theorem atMostOneCompletion_afterAction (silent atomic : Bool) (a : Nat) (w : HostInt) (i : Instr) (s : State) :
    AtMostOneCompletion s (afterAction silent atomic a w i s) :=
  (atMostOneCompletion_traceUnless ..).trans (atMostOneCompletion_finalizeIfHalted ..)

theorem ActionEffect.atMostOneCompletion (h : ActionEffect s t) : AtMostOneCompletion s t := by
  cases h with
  | log l => exact atMostOneCompletion_emit (by nofun) s
  | acc | jump | none | store | halt => exact .of_eq rfl rfl

/-- An end that logs its line may finalize after it (R91, R92). -/
theorem atMostOneCompletion_log_finalizeUnless (atomic : Bool) (r : LogRecord) (s : State) :
    AtMostOneCompletion s (finalizeUnless atomic (emitLog r s)) :=
  (atMostOneCompletion_emit (by nofun) s).trans (atMostOneCompletion_finalizeUnless ..)

theorem StepEnd.atMostOneCompletion (h : StepEnd silent atomic s t) : AtMostOneCompletion s t := by
  cases h with
  | ceiling => exact (atMostOneCompletion_log_finalizeUnless ..).of_start rfl rfl
  | undefinedFetch => exact (atMostOneCompletion_log_finalizeUnless ..).of_start rfl rfl
  | invalidCommand => exact (atMostOneCompletion_emit (by nofun) _).of_start rfl rfl
  | @action w i u _ _ _ he =>
    have haction : AtMostOneCompletion s u := (exec_effect he).atMostOneCompletion.of_start rfl rfl
    exact haction.trans (atMostOneCompletion_afterAction ..)

theorem stepWith_atMostOneCompletion (h : stepWith silent atomic s = .next t) : AtMostOneCompletion s t :=
  (stepWith_end h).2.atMostOneCompletion

theorem atMostOneCompletion_unscheduleIfHalted (s : State) : AtMostOneCompletion s (unscheduleIfHalted s) := by
  rw [unscheduleIfHalted_eq]
  exact .of_eq rfl rfl

theorem tick_atMostOneCompletion (h : tick s = .next t) : AtMostOneCompletion s t := by
  obtain rfl | ⟨u, hu, rfl⟩ | rfl := tick_end h
  · exact .refl _
  · exact (stepWith_atMostOneCompletion hu).trans (atMostOneCompletion_unscheduleIfHalted u)
  · exact atMostOneCompletion_unscheduleIfHalted s

theorem cancel_atMostOneCompletion (h : cancel s = .next t) : AtMostOneCompletion s t := by
  unfold cancel at h
  split at h
  · cases h
  · cases h
    rw [haltIfRunning_eq]
    exact (atMostOneCompletion_finalize _).of_start rfl rfl

theorem settle_atMostOneCompletion {o : Host.Outcome State Fault Refusal}
    (ho : ∀ t, o = .next t → AtMostOneCompletion s t) : AtMostOneCompletion s (settle s o) := by
  cases o with
  | next t => exact ho t rfl
  | fault f => exact .of_eq rfl rfl
  | refused r => exact .refl s

/-- An operation that starts no run notifies of the completion as a finalization does (R104). -/
theorem afterOp_atMostOneCompletion {op : HostOp} (hop : op.starts = false) (s : State) :
    AtMostOneCompletion s (afterOp op s) := by
  cases op with
  | start | run | startCooperative => cases hop
  | step silent atomic => exact settle_atMostOneCompletion fun _ => stepWith_atMostOneCompletion
  | tick => exact settle_atMostOneCompletion fun _ => tick_atMostOneCompletion
  | cancel => exact settle_atMostOneCompletion fun _ => cancel_atMostOneCompletion

/-- So does any sequence of them. -/
theorem foldl_afterOp_atMostOneCompletion {ops : List HostOp} (hops : ∀ op ∈ ops, op.starts = false) (s : State) :
    AtMostOneCompletion s (ops.foldl (fun t op => afterOp op t) s) := by
  induction ops generalizing s with
  | nil => exact .refl s
  | cons op ops ih =>
    obtain ⟨hop, hops⟩ := List.forall_mem_cons.1 hops
    exact (afterOp_atMostOneCompletion hop s).trans (ih hops (afterOp op s))

/-- Settles O54: a sequence leaves the completions, or finalizes a run that was not. -/
theorem completionIsNotifiedAtMostOncePerRun : Obligations.CompletionIsNotifiedAtMostOncePerRun := by
  intro ops s hops
  cases foldl_afterOp_atMostOneCompletion hops s with
  | quiet hflag hcount => exact ⟨hcount.trans_le (Nat.le_succ _), fun _ => hcount⟩
  | finalizes hs ht hcount => exact ⟨hcount, fun hfinal => by cases hs.symm.trans hfinal⟩

end Sys2Proof.Machine
end

section
/-! The bound on a run (40_step_engine.md R96): the steps a running machine has left, which each step of the loop spends. -/

namespace Sys2Proof.Machine

/-- How many steps of the loop `s` can take: none once halted, else R96's bound, one step at least, which at the ceiling is the
one that trips it. -/
def stepBudget (s : State) : Nat := if s.running then runBound s else 0

/-- What the loop on `s` ends in when its fuel is enough: a halted machine within the budget, or a fault. -/
inductive LoopEnd (s : State) : Host.Outcome State Fault Refusal → Prop where
  | halted {t} (ht : t.running = false) (hcount : t.stepCount ≤ s.stepCount + stepBudget s) : LoopEnd s (.next t)
  | fault (f : Fault) : LoopEnd s (.fault f)

variable {s t : State} {n : Nat}

theorem stepBudget_of_running (h : s.running = true) : stepBudget s = runBound s := if_pos h

theorem runBound_pos (s : State) : 0 < runBound s := Nat.le_max_left ..

/-- A step that leaves the machine running was below the ceiling (R91). -/
theorem below_of_stepWith_running {silent atomic : Bool} (h : stepWith silent atomic s = .next t)
    (ht : t.running = true) : s.stepCount + 1 < s.params.stepCeiling := by
  by_contra hc
  have hhalted := ((HaltEvent.ceiling (not_lt.1 hc)).halts h).1
  rw [ht] at hhalted
  cases hhalted

/-- Every step of the loop spends one of the steps left. -/
theorem stepBudget_of_stepWith (hrun : s.running = true) (h : stepWith true false s = .next t) :
    stepBudget t + 1 ≤ stepBudget s := by
  have hpos := runBound_pos s
  rw [stepBudget_of_running hrun]
  unfold stepBudget
  split
  case isFalse => omega
  case isTrue ht =>
    have hbelow := below_of_stepWith_running h ht
    obtain ⟨hcount, -, -, -, hparams, -, -⟩ := everyStepCountsOne _ _ _ _ h
    rw [runBound, runBound, hcount, hparams]
    omega

/-! The loop's turns (R96). -/

theorem runLoop_of_halted (hrun : s.running = false) (n : Nat) : runLoop n s = .next s := by
  cases n with
  | zero => rfl
  | succ n => rw [runLoop, if_neg (Bool.eq_false_iff.1 hrun)]

theorem runLoop_of_step (hrun : s.running = true) (h : stepWith true false s = .next t) (n : Nat) :
    runLoop (n + 1) s = runLoop n t := by
  rw [runLoop, if_pos hrun, h]

theorem runLoop_of_stepWith_fault {f : Fault} (hrun : s.running = true) (h : stepWith true false s = .fault f) (n : Nat) :
    runLoop (n + 1) s = .fault f := by
  rw [runLoop, if_pos hrun, h]

/-- Enough fuel for a running machine is some. -/
theorem exists_fuel_of_running (hrun : s.running = true) (hn : stepBudget s ≤ n) : ∃ k, n = k + 1 := by
  rw [stepBudget_of_running hrun] at hn
  exact Nat.exists_eq_add_one.2 ((runBound_pos s).trans_le hn)

/-- Induction along the loop with enough fuel: a halted machine ends it, a step that faults ends it, and any other step leaves
enough fuel for the next turn. -/
theorem loop_induction {motive : State → Nat → Prop} (halted : ∀ s n, s.running = false → motive s n)
    (fault : ∀ s n f, s.running = true → stepWith true false s = .fault f → motive s (n + 1))
    (next : ∀ s n t, s.running = true → stepWith true false s = .next t → stepBudget t ≤ n → motive t n →
      motive s (n + 1))
    (s : State) (n : Nat) (hn : stepBudget s ≤ n) : motive s n := by
  induction n generalizing s with
  | zero =>
    cases hrun : s.running with
    | false => exact halted s 0 hrun
    | true => obtain ⟨_, h⟩ := exists_fuel_of_running hrun hn; cases h
  | succ n ih =>
    cases hrun : s.running with
    | false => exact halted s (n + 1) hrun
    | true =>
      cases hstep : stepWith true false s with
      | fault f => exact fault s n f hrun hstep
      | refused r => exact absurd hstep (stepWith_ne_refused _ _ _ _)
      | next t =>
        have hspent := stepBudget_of_stepWith hrun hstep
        have hleft : stepBudget t ≤ n := by omega
        exact next s n t hrun hstep hleft (ih t hleft)

/-- A turn of the loop counts one step and spends one of the budget. -/
theorem LoopEnd.of_step {o : Host.Outcome State Fault Refusal} (hrun : s.running = true)
    (hstep : stepWith true false s = .next t) (h : LoopEnd t o) : LoopEnd s o := by
  cases h with
  | fault f => exact .fault f
  | halted hu hle =>
    have hcount := (everyStepCountsOne _ _ _ _ hstep).1
    have hspent := stepBudget_of_stepWith hrun hstep
    exact .halted hu (by omega)

theorem runLoop_end (hn : stepBudget s ≤ n) : LoopEnd s (runLoop n s) := by
  refine loop_induction (motive := fun s n => LoopEnd s (runLoop n s)) ?halted ?fault ?next s n hn
  case halted =>
    intro s n hrun
    rw [runLoop_of_halted hrun]
    exact .halted hrun (Nat.le_add_right ..)
  case fault =>
    intro s n f hrun hstep
    rw [runLoop_of_stepWith_fault hrun hstep]
    exact .fault f
  case next =>
    intro s n t hrun hstep _ ih
    rw [runLoop_of_step hrun hstep]
    exact ih.of_step hrun hstep

/-- Fuel beyond the budget changes nothing. -/
theorem runLoop_fuel {m : Nat} (hn : stepBudget s ≤ n) (hm : stepBudget s ≤ m) : runLoop m s = runLoop n s := by
  refine loop_induction (motive := fun s n => ∀ m, stepBudget s ≤ m → runLoop m s = runLoop n s)
    ?halted ?fault ?next s n hn m hm
  case halted =>
    intro s n hrun m _
    rw [runLoop_of_halted hrun, runLoop_of_halted hrun]
  case fault =>
    intro s n f hrun hstep m hm
    obtain ⟨k, rfl⟩ := exists_fuel_of_running hrun hm
    rw [runLoop_of_stepWith_fault hrun hstep, runLoop_of_stepWith_fault hrun hstep]
  case next =>
    intro s n t hrun hstep _ ih m hm
    obtain ⟨k, rfl⟩ := exists_fuel_of_running hrun hm
    have hspent := stepBudget_of_stepWith hrun hstep
    rw [runLoop_of_step hrun hstep, runLoop_of_step hrun hstep]
    exact ih k (by omega)

/-- What a start of `s` answers (R95). -/
def started (s : State) : State := { s with running := true, haltReason := .none, finalized := false }

theorem start_eq_started (hs : s.fault = none) : start s = .next (started s) := start_of_fault_eq_none hs

/-- A started machine runs and keeps its counter, so its budget is R96's bound. -/
theorem stepBudget_started (s : State) : stepBudget (started s) = runBound s := rfl

theorem run_eq_runLoop (hs : s.fault = none) : run s = runLoop (runBound s) (started s) := by
  rw [run, start_eq_started hs]
  rfl

/-- Settles O55: a run is the loop on the started machine, with its budget as fuel. -/
theorem runEndsWithinTheStepBudget : Obligations.RunEndsWithinTheStepBudget := by
  intro s hs
  have hbudget : stepBudget (started s) ≤ runBound s := (stepBudget_started s).le
  rw [run_eq_runLoop hs]
  constructor
  · have hend := runLoop_end hbudget
    generalize runLoop (runBound s) (started s) = o at hend
    cases hend with
    | @halted t ht hcount => exact .inl ⟨t, rfl, ht, hcount⟩
    | fault f => exact .inr ⟨f, rfl⟩
  · intro n u hn hu
    rw [start_eq_started hs] at hu
    cases hu
    exact runLoop_fuel hbudget hn

end Sys2Proof.Machine
end
